-- ==== Sys2Proof/Word.lean ====
section
/-! DEFINITION. The machine's one data width: the unsigned 8-bit value of registers, memory cells, opcode and operand
bytes (spec/00_scope.md R6, R9). -/

namespace Sys2Proof

/-- An unsigned 8-bit value: `CELL_WIDTH`, `REG_WIDTH` and `OPCODE_WIDTH` of R6 are all 8. -/
abbrev Byte := BitVec 8

end Sys2Proof
end

