-- ==== Sys2Proof/Config.lean ====
section
/-! DEFINITION. The machine's sizes, each at the value of spec/00_scope.md R6. R7 leaves none of them open, so this file
holds no free value. `abbrev`, so that arithmetic sees the numbers. -/

namespace Sys2Proof.Config

/-- `MEM_SIZE` (R6): addresses are 0 to 255. -/
@[simp] abbrev memSize : Nat := 256

/-- `NREGS` (R6): register indices are 0 to 7. -/
abbrev nregs : Nat := 8

/-- `PC_RESET` (R6, R27). -/
abbrev pcReset : Nat := 0

/-- `LOAD_BASE` (R6, R59): the address of the first program byte. -/
abbrev loadBase : Nat := 0

/-- `SP_RESET` (R6, R31): SP after reset, and the exclusive top of the stack region. Mark: UNVERIFIED (assumption 3). -/
@[simp] abbrev spReset : Nat := 0xF4

/-- `STACK_FLOOR` (R6, the spec's decision D7; UNVERIFIED, assumption 2). -/
@[simp] abbrev stackFloor : Nat := 0

/-- `PC_MAX` (R6, the spec's decision D6; UNVERIFIED, assumption 2): the largest value PC can hold. -/
@[simp] abbrev pcMax : Nat := 256

/-- `FL_RESET` (R6, R32, the spec's decision D11; UNVERIFIED, assumption 2). -/
@[simp] abbrev flReset : Byte := 0x00

end Sys2Proof.Config
end

