-- ==== Sys2Proof/Machine/State.lean ====
section
/-! DEFINITION. The machine's state, plain data, as spec/10_state.md R20 lists it, its value after reset, and the
reasons for which no step exists. -/

namespace Sys2Proof.Machine

/-- A register index that has passed `CheckReg` (R21, R23). -/
abbrev RegIdx := Fin Config.nregs

/-- The memory array: the listed cells, addresses strictly rising, none equal to what an unlisted address reads as
(R50; DESIGN CHOICE, assumption 4). Its form is `Memory.wf`, its one-byte reads and writes are in Machine/Ops.lean. -/
abbrev Memory := List Host.Cell

/-- The five fault kinds (R34, R180). -/
inductive FaultKind where
  | unknownOpcode
  | addressOutOfRange
  | unsupportedOperation
  | stackOverflow
  | stackUnderflow
  deriving DecidableEq, Repr

/-- The two spaces of AddressOutOfRange: MEM and REG (R34, R182). -/
inductive Space where
  | mem
  | reg
  deriving DecidableEq, Repr

/-- The fault record (R34; its layout is the spec's decision D3; UNVERIFIED, assumption 2). -/
structure FaultRecord where
  kind   : FaultKind
  /-- The numeric code of R180. -/
  code   : Byte
  /-- pc of the faulting step. -/
  pc     : Nat
  /-- The opcode byte, if the fault came after it was read. -/
  opcode : Option Byte
  /-- For AddressOutOfRange only. -/
  space  : Option Space
  /-- The offending address, index, SP value or opcode (R181 to R185). -/
  value  : Nat
  deriving DecidableEq, Repr

/-- A fault with the information `raise F(info)` of R10 gives it. -/
inductive Cause where
  /-- UnknownOpcode(op) (R181). -/
  | unknownOpcode (op : Byte)
  /-- AddressOutOfRange(space, value) (R182). -/
  | addressOutOfRange (space : Space) (value : Nat)
  /-- UnsupportedOperation(op) (R183). -/
  | unsupportedOperation (op : Byte)
  /-- StackOverflow(sp) (R184). -/
  | stackOverflow (sp : Nat)
  /-- StackUnderflow(sp) (R185). -/
  | stackUnderflow (sp : Nat)
  deriving DecidableEq, Repr

/-- The machine status (R33). Halted and Faulted are terminal. -/
inductive Status where
  | running
  | halted
  | faulted (record : FaultRecord)
  deriving DecidableEq, Repr

/-- The architectural state of CORE, the whole of it (R20). PC and SP are naturals, as R9 has them; their bounds are
part of the invariant in Safety.lean (DESIGN CHOICE, assumption 5). -/
structure State where
  /-- memory_array (R50). -/
  mem    : Memory
  /-- register_file, R0 to R7 (R21). -/
  x      : Vector Byte Config.nregs
  /-- program_counter, 0 to 256 (R25). -/
  pc     : Nat
  /-- stack pointer, 0 to 0xF4 (R29). -/
  sp     : Nat
  /-- FL, which no instruction reads or writes (R32). -/
  fl     : Byte
  /-- The loop state, with the fault record when it is Faulted (R33, R34). -/
  status : Status
  /-- The output channel, oldest value first (R36). -/
  out    : List Byte
  deriving DecidableEq, Repr

/-- CORE after reset with an empty program image: R24, R27, R31, R32, R33, R36, R39 and R210. A program comes into
memory by `load` (Machine/HostInterface.lean; DESIGN CHOICE,
assumption 6). -/
def State.reset : State where
  mem    := []
  x      := Vector.replicate Config.nregs 0
  pc     := Config.pcReset
  sp     := Config.spReset
  fl     := Config.flReset
  status := .running
  out    := []

/-- Why no step exists. The five faults of R180 are not here: taking one is a next state whose status is Faulted
(R186). -/
inductive Fault where
  /-- Raised by `step` alone, when the status is Halted: R101 says that no step is possible. Safe: the model stops where
  the machine has stopped for good. -/
  | alreadyHalted
  /-- Raised by `step` alone, when the status is Faulted: R101 says that no step is possible. It hands on the record for
  diagnostics (R110). Safe: the model stops where the machine has stopped for good. -/
  | alreadyFaulted (record : FaultRecord)
  deriving DecidableEq, Repr

/-- Why an instruction has no meaning. -/
inductive Refusal where
  /-- Raised by a refused arm of `exec`, of which there is none now: all six instructions have their meaning. Safe. -/
  | notModelled (mnemonic : String)
  deriving DecidableEq, Repr

/-- What a step of this machine answers. -/
abbrev StepOutcome := Host.Outcome State Fault Refusal

end Sys2Proof.Machine
end

