-- ==== Sys2Proof/Machine/Flags.lean ====
section
/-! DEFINITION. The flag computation. There is one flag byte, FL, and no instruction sets it (spec/10_state.md R32); the
ALU gives no carry, overflow or zero indication anywhere (spec/42_alu.md R161, R165). -/

namespace Sys2Proof.Machine

/-- FL after an ALU operation with this result: unchanged (R161, R165). -/
def flagsAfterAlu (fl _result : Byte) : Byte := fl

end Sys2Proof.Machine
end

