-- ==== Sys2Proof/Syntax.lean ====
section
/-! DEFINITION. The instruction set: one constructor for each row of spec/opcode_table.json (spec/00_scope.md R3). -/

namespace Sys2Proof

/-- The six instructions of R3. A register operand is the whole operand byte, as R21 and R74 have it: a byte of 8 or more
is no other encoding, it decodes and then raises a fault (R23). An ignored operand byte (R74) is no part of the
instruction (DESIGN CHOICE, assumption 10). -/
inductive Instr where
  /-- `HLT` (R130). -/
  | hlt
  /-- `LDI Ra, imm8` (R131). -/
  | ldi (ra imm8 : Byte)
  /-- `PRN Ra` (R132). -/
  | prn (ra : Byte)
  /-- `POP Ra` (R133). -/
  | pop (ra : Byte)
  /-- `PUSH Ra` (R134). -/
  | push (ra : Byte)
  /-- `MUL Ra, Rb` (R161). -/
  | mul (ra rb : Byte)
  deriving DecidableEq, Repr

end Sys2Proof
end

