-- ==== Sys2Proof/WellFormed.lean ====
section
/-! DEFINITION. Well-formed instructions: every operand byte used as a register index names a register, as
spec/opcode_table.json asks ("register index, must be 0..7") and spec/10_state.md R23 checks. An ill-formed instruction
has a meaning too: it raises AddressOutOfRange in space REG. -/

namespace Sys2Proof

/-- The operand bytes an instruction uses as register indices, in the order R109 checks them (R22, R74). -/
def Instr.regOperands : Instr → List Byte
  | .hlt => []
  | .ldi ra _ => [ra]
  | .prn ra => [ra]
  | .pop ra => [ra]
  | .push ra => [ra]
  | .mul ra rb => [ra, rb]

/-- Every register operand is an index of 0 to 7 (R23). -/
def Instr.wf (i : Instr) : Bool :=
  i.regOperands.all fun r => decide (r.toNat < Config.nregs)

end Sys2Proof
end

