-- ==== Sys2Proof/Decode.lean ====
section
/-! DEFINITION. The opcode map, the instruction_decoder and the encoder (spec/30_encoding.md R70 to R81 and
spec/40_execution_loop.md R104). -/

namespace Sys2Proof

/-! ### The opcode map (R77) -/

/-- HALT=0x01 (R77). -/
def opHlt : Byte := 0x01

/-- IMMEDIATE_LOAD=0x82 (R77). -/
def opLdi : Byte := 0x82

/-- PRINT=0x47 (R77). -/
def opPrn : Byte := 0x47

/-- POP=0x46 (R77). Mark: UNVERIFIED (assumption 3). -/
def opPop : Byte := 0x46

/-- PUSH=0x45 (R77). Mark: UNVERIFIED (assumption 3). -/
def opPush : Byte := 0x45

/-- MULTIPLY=0xA2 (R77). -/
def opMul : Byte := 0xA2

/-! ### The fields of the opcode byte (R71) -/

/-- `n = op[7:6]`, the operand count (R71, R104). -/
def operandCount (op : Byte) : Nat := (op.extractLsb' 6 2).toNat

/-- `alu = op[5]`, the ALU flag (R71). Decoding does not use it (R72). -/
def aluFlag (op : Byte) : Bool := op.getLsbD 5

/-- `id = op[4:0]`, the operation identifier (R71). Decoding does not use it on its own (R73). -/
def opId (op : Byte) : Nat := (op.extractLsb' 0 5).toNat

/-! ### The decoder -/

/-- The three bytes the fetch_unit reads at pc, pc+1 and pc+2, whatever the opcode is (R55, R70, R102). They live within
one step (R37). -/
structure Window where
  op : Byte
  a  : Byte
  b  : Byte
  deriving DecidableEq, Repr

/-- The decoder's handler selection `sel` (R104, R111). -/
inductive Selection where
  | hlt
  | ldi
  | prn
  | pop
  | push
  /-- To alu_dispatch, whose one operation is MUL (R160). -/
  | alu
  /-- Any value other than the six of R77 (R79). -/
  | illegal
  deriving DecidableEq, Repr

/-- The handler selection of R104: by the whole byte value (R76), not by its bits (R72, R73). -/
def select (op : Byte) : Selection :=
  if op = opHlt then .hlt
  else if op = opLdi then .ldi
  else if op = opPrn then .prn
  else if op = opPop then .pop
  else if op = opPush then .push
  else if op = opMul then .alu
  else .illegal

/-- What decoding a window gives: an instruction, or a rejection that names the illegal byte (R79). -/
inductive Decoded where
  | instr (i : Instr)
  | illegal (op : Byte)
  deriving DecidableEq, Repr

/-- Decode the fetched bytes: the selected handler with the operand bytes its form uses (R74, R75, R105). -/
def decode (w : Window) : Decoded :=
  match select w.op with
  | .hlt => .instr .hlt
  | .ldi => .instr (.ldi w.a w.b)
  | .prn => .instr (.prn w.a)
  | .pop => .instr (.pop w.a)
  | .push => .instr (.push w.a)
  | .alu => .instr (.mul w.a w.b)
  | .illegal => .illegal w.op

/-! ### The encoder -/

/-- An instruction's opcode byte (R77). -/
def opcodeOf : Instr → Byte
  | .hlt => opHlt
  | .ldi _ _ => opLdi
  | .prn _ => opPrn
  | .pop _ => opPop
  | .push _ => opPush
  | .mul _ _ => opMul

/-- An instruction's operand bytes in address order (R75). -/
def operandBytes : Instr → List Byte
  | .hlt => []
  | .ldi ra imm8 => [ra, imm8]
  | .prn ra => [ra]
  | .pop ra => [ra]
  | .push ra => [ra]
  | .mul ra rb => [ra, rb]

/-- The bytes of an instruction in address order: only those it uses (R75, R82). -/
def encode (i : Instr) : List Byte := opcodeOf i :: operandBytes i

/-! ### The host's reading of a table word -/

/-- The three bytes whose bits are the low `nbits` of `w`, byte 0 the least significant; all further bits are 0. -/
def windowOfTableWord (nbits w : Nat) : Window :=
  let v := w % 2 ^ nbits
  { op := BitVec.ofNat 8 v, a := BitVec.ofNat 8 (v / 2 ^ 8), b := BitVec.ofNat 8 (v / 2 ^ 16) }

/-- The instruction the decoder reads from a word numbered as spec/opcode_table.json numbers it; `none` where the decoder
rejects it. -/
def decodeTableWord (nbits w : Nat) : Option Instr :=
  match decode (windowOfTableWord nbits w) with
  | .instr i => some i
  | .illegal _ => none

end Sys2Proof
end

