-- ==== Sys2Proof/Machine/Ops.lean ====
section
/-! DEFINITION. The pseudocode primitives of spec/00_scope.md R10 over memory, registers, PC, output and status, and
taking a fault as one shared operation (spec/60_exceptions.md R186). There is no return from a fault (R188), so none
stands beside it. -/

namespace Sys2Proof.Machine

/-! ### The memory array -/

/-- What a cell that nothing has written reads as: 0, "zero-initialized" (R39, R59). -/
def unlistedByte : Byte := 0

/-- One cell of the memory array, with no bounds check. -/
def byteAt : Memory → Nat → Byte
  | [], _ => unlistedByte
  | (k, w) :: m, addr => if k = addr then w else byteAt m addr

/-- Put a cell in front of a memory, unless its byte is the unlisted one. -/
def listCell (addr : Nat) (v : Byte) (m : Memory) : Memory :=
  if v = unlistedByte then m else (addr, v) :: m

/-- Write one cell with no bounds check, keeping the canonical form. -/
def setByte : Memory → Nat → Byte → Memory
  | [], addr, v => listCell addr v []
  | (k, w) :: m, addr, v =>
    if addr < k then listCell addr v ((k, w) :: m)
    else if addr = k then listCell addr v m
    else (k, w) :: setByte m addr v

/-- `Memory.wf` for the cells from address `lo` upward. -/
def cellsWfFrom : Nat → Memory → Bool
  | _, [] => true
  | lo, (k, w) :: m =>
    decide (lo ≤ k) && decide (k < Config.memSize) && decide (w ≠ unlistedByte) && cellsWfFrom (k + 1) m

/-- The canonical form: addresses strictly rising and inside the array, no cell at the unlisted byte. -/
def Memory.wf (m : Memory) : Bool := cellsWfFrom 0 m

/-- `MemRead(addr, 1)` (R51). -/
def memRead (m : Memory) (addr : Nat) : Except Cause Byte :=
  if addr < Config.memSize then .ok (byteAt m addr) else .error (.addressOutOfRange .mem addr)

/-- `MemWrite(addr, 1, v)` (R52). -/
def memWrite (m : Memory) (addr : Nat) (v : Byte) : Except Cause Memory :=
  if addr < Config.memSize then .ok (setByte m addr v) else .error (.addressOutOfRange .mem addr)

/-- Write bytes at rising addresses from `addr`: bytes beyond the array have no cell and are dropped. The host's load and
`State.withFetchWord` use it; no instruction does. -/
def storeBytes (m : Memory) (addr : Nat) : List Byte → Memory
  | [] => m
  | v :: vs => storeBytes (if addr < Config.memSize then setByte m addr v else m) (addr + 1) vs

/-! ### Registers, PC, output and status -/

/-- `x[i]` (R21): no register is hard-wired. -/
def readReg (s : State) (r : RegIdx) : Byte := s.x[r]

/-- `x[i] <- v` (R21). -/
def writeReg (s : State) (r : RegIdx) (v : Byte) : State := { s with x := s.x.set r v }

/-- `emit(v)`: append to the output channel (R36). -/
def emit (s : State) (v : Byte) : State := { s with out := s.out ++ [v] }

/-- `halt`: the status becomes Halted (R33). -/
def halt (s : State) : State := { s with status := .halted }

/-- The program_counter's advance, `pc <- pc + n + 1` with `n = op[7:6]`, no wrap (R106). -/
def advancePc (op : Byte) (s : State) : State := { s with pc := s.pc + operandCount op + 1 }

/-! ### Taking a fault -/

/-- The numeric codes of R180 (the spec's decision D3; UNVERIFIED, assumption 2). -/
def faultCode : FaultKind → Byte
  | .unknownOpcode => 0x01
  | .addressOutOfRange => 0x02
  | .unsupportedOperation => 0x03
  | .stackOverflow => 0x04
  | .stackUnderflow => 0x05

/-- The kind of a raised fault (R180). -/
def causeKind : Cause → FaultKind
  | .unknownOpcode _ => .unknownOpcode
  | .addressOutOfRange _ _ => .addressOutOfRange
  | .unsupportedOperation _ => .unsupportedOperation
  | .stackOverflow _ => .stackOverflow
  | .stackUnderflow _ => .stackUnderflow

/-- The space of a raised fault: for AddressOutOfRange only (R34). -/
def causeSpace : Cause → Option Space
  | .addressOutOfRange space _ => some space
  | _ => none

/-- The value a raised fault records (R180 to R185). -/
def causeValue : Cause → Nat
  | .unknownOpcode op => op.toNat
  | .addressOutOfRange _ value => value
  | .unsupportedOperation op => op.toNat
  | .stackOverflow sp => sp
  | .stackUnderflow sp => sp

/-- The record `{kind, code, pc, opcode, space, value}` of a fault raised at `pc` (R34, R186). -/
def faultRecord (pc : Nat) (opcode : Option Byte) (c : Cause) : FaultRecord where
  kind   := causeKind c
  code   := faultCode (causeKind c)
  pc     := pc
  opcode := opcode
  space  := causeSpace c
  value  := causeValue c

/-- Fault entry (R186): from the state at the start of the step, the status becomes Faulted with the record, and nothing
else changes. `opcode` is the opcode byte if the fault came after it was read. -/
def takeFault (s : State) (opcode : Option Byte) (c : Cause) : State :=
  { s with status := .faulted (faultRecord s.pc opcode c) }

/-- The end of a handler's step (R109, R186): the handler's state when it finished, or fault entry from the state the
step began in when it raised, so that every staged write is discarded. -/
def commit (s : State) (op : Byte) (r : Except Cause State) : StepOutcome :=
  match r with
  | .ok t => .next t
  | .error c => .next (takeFault s (some op) c)

end Sys2Proof.Machine
end

