-- ==== Sys2Proof/Machine/Operands.lean ====
section
/-! DEFINITION. The operand forms: the checked register index, the immediate and the stack_controller's two addressing
modes (spec/10_state.md R23, spec/30_encoding.md R74, spec/41_data_control.md R135). -/

namespace Sys2Proof.Machine

/-- `CheckReg(i)` (R10, R23): the whole byte is the index; 8 or more raises AddressOutOfRange(REG, i). -/
def checkReg (i : Byte) : Except Cause RegIdx :=
  if h : i.toNat < Config.nregs then .ok ⟨i.toNat, h⟩ else .error (.addressOutOfRange .reg i.toNat)

/-- The immediate operand: the byte whole, with no extension (R74, R131). -/
def immediate (b : Byte) : Byte := b

/-- What the stack_controller answers to a request it grants (R111, R135). -/
structure StackAccess where
  addr   : Nat
  spNext : Nat
  deriving DecidableEq, Repr

/-- The push request: check, then pre-decrement (R135; the check is the spec's decision D7; UNVERIFIED, assumption 2). -/
def stackPush (sp : Nat) : Except Cause StackAccess :=
  if sp = Config.stackFloor then .error (.stackOverflow sp) else .ok { addr := sp - 1, spNext := sp - 1 }

/-- The pop request: check, then post-increment (R135; the check is the spec's decision D8; UNVERIFIED, assumption 2). -/
def stackPop (sp : Nat) : Except Cause StackAccess :=
  if Config.spReset ≤ sp then .error (.stackUnderflow sp) else .ok { addr := sp, spNext := sp + 1 }

end Sys2Proof.Machine
end

