-- ==== Sys2Proof/Machine/Alu.lean ====
section
/-! DEFINITION. alu_dispatch and its one operation, MUL (spec/42_alu.md R160 to R165). -/

namespace Sys2Proof.Machine

/-- The product formed exactly, its low 8 bits kept (R161, R162). -/
def mulByte (va vb : Byte) : Byte := BitVec.ofNat 8 (va.toNat * vb.toNat)

/-- The ALU's one table, keyed by the opcode value alone: its one entry is 0xA2 for MUL (R160). -/
def aluTable (op : Byte) : Option (Byte → Byte → Byte) :=
  if op = opMul then some mulByte else none

/-- alu_dispatch, called with `(op, a, b)` (R105, R160): an opcode that is not in the table raises
UnsupportedOperation(op), whatever the operands (R163; DESIGN CHOICE, assumption 8, for the place of that check); else
`CheckReg(a)`, `CheckReg(b)`, the result to `x[a]`, FL as the flag computation says, and PC advances (R106, R161). -/
def aluDispatch (op a b : Byte) (s : State) : Except Cause State :=
  match aluTable op with
  | none => .error (.unsupportedOperation op)
  | some f => do
    let ra ← checkReg a
    let rb ← checkReg b
    let v := f (readReg s ra) (readReg s rb)
    return advancePc op { writeReg s ra v with fl := flagsAfterAlu s.fl v }

/-- MUL Ra, Rb (R161). -/
def execMul (ra rb : Byte) (s : State) : StepOutcome :=
  commit s opMul (aluDispatch opMul ra rb s)

end Sys2Proof.Machine
end

