-- ==== Sys2Proof/Machine/DataControl.lean ====
section
/-! DEFINITION. The data/control handlers HLT, LDI, PRN, POP and PUSH (spec/41_data_control.md R130 to R134). Every check
comes before every write (spec/40_execution_loop.md R109). -/

namespace Sys2Proof.Machine

/-- HLT (R130): the status becomes Halted; PC keeps the address of the HLT opcode (R107). -/
def execHlt (s : State) : StepOutcome :=
  commit s opHlt (.ok (halt s))

/-- LDI Ra, imm8 (R131). -/
def execLdi (ra imm8 : Byte) (s : State) : StepOutcome :=
  commit s opLdi do
    let a ← checkReg ra
    return advancePc opLdi (writeReg s a (immediate imm8))

/-- PRN Ra (R132). -/
def execPrn (ra : Byte) (s : State) : StepOutcome :=
  commit s opPrn do
    let a ← checkReg ra
    return advancePc opPrn (emit s (readReg s a))

/-- POP Ra (R133): the read comes before the increment, and the cell is not cleared. -/
def execPop (ra : Byte) (s : State) : StepOutcome :=
  commit s opPop do
    let a ← checkReg ra
    let access ← stackPop s.sp
    let v ← memRead s.mem access.addr
    return advancePc opPop { writeReg s a v with sp := access.spNext }

/-- PUSH Ra (R134): the decrement comes before the write. -/
def execPush (ra : Byte) (s : State) : StepOutcome :=
  commit s opPush do
    let a ← checkReg ra
    let access ← stackPush s.sp
    let mem ← memWrite s.mem access.addr (readReg s a)
    return advancePc opPush { s with sp := access.spNext, mem := mem }

end Sys2Proof.Machine
end

