-- ==== Sys2Proof/Machine/Dispatch.lean ====
section
/-! DEFINITION. One flat table selects the handler (spec/40_execution_loop.md R105). -/

namespace Sys2Proof.Machine

/-- The handler of each instruction (R105). Only `step` looks at the status (DESIGN CHOICE, assumption 11). -/
def exec (i : Instr) (s : State) : Host.Outcome State Fault Refusal :=
  match i with
  | .hlt => Sys2Proof.Machine.execHlt s
  | .ldi ra imm8 => Sys2Proof.Machine.execLdi ra imm8 s
  | .prn ra => Sys2Proof.Machine.execPrn ra s
  | .pop ra => Sys2Proof.Machine.execPop ra s
  | .push ra => Sys2Proof.Machine.execPush ra s
  | .mul ra rb => Sys2Proof.Machine.execMul ra rb s

end Sys2Proof.Machine
end

