-- ==== Sys2Proof/Machine/Fetch.lean ====
section
/-! DEFINITION. The fetch_unit (spec/40_execution_loop.md R102, R103). -/

namespace Sys2Proof.Machine

/-- A fetch that left memory: the opcode byte if it had been read, and the fault (R103). -/
structure FetchFault where
  opcode : Option Byte
  cause  : Cause
  deriving DecidableEq, Repr

/-- Mark a read's fault with the opcode byte read so far (R103). -/
def fetchRead (m : Memory) (addr : Nat) (opcode : Option Byte) : Except FetchFault Byte :=
  match memRead m addr with
  | .ok v => .ok v
  | .error c => .error { opcode := opcode, cause := c }

/-- The three reads at pc, pc+1 and pc+2, in this order, before decoding and whatever the opcode is (R102). -/
def fetch (s : State) : Except FetchFault Window := do
  let op ← fetchRead s.mem s.pc none
  let a ← fetchRead s.mem (s.pc + 1) (some op)
  let b ← fetchRead s.mem (s.pc + 2) (some op)
  return { op := op, a := a, b := b }

end Sys2Proof.Machine
end

