-- ==== Sys2Proof/Machine/Step.lean ====
section
/-! DEFINITION. One step of CORE: the body of the fetch, decode and dispatch loop (spec/40_execution_loop.md R109). -/

namespace Sys2Proof.Machine

/-- One step from a Running state (R109). -/
def runningStep (s : State) : StepOutcome :=
  match fetch s with
  | .error f => .next (takeFault s f.opcode f.cause)
  | .ok w =>
    match decode w with
    | .instr i => exec i s
    | .illegal op => .next (takeFault s (some op) (.unknownOpcode op))

/-- One step (R100, R109). It exists only when the status is Running (R101); what the model answers otherwise is a
DESIGN CHOICE (assumption 1). -/
def step (s : State) : Host.Outcome State Fault Refusal :=
  match s.status with
  | .running => runningStep s
  | .halted => .fault .alreadyHalted
  | .faulted r => .fault (.alreadyFaulted r)

/-- `s` with the three bytes of a table word stored at pc, pc+1 and pc+2, where the fetch reads (R102). A byte beyond the
array has no cell (R103), and a stopped machine stays stopped (R101; DESIGN CHOICE,
assumption 9). -/
def State.withFetchWord (s : State) (nbits w : Nat) : State :=
  let v := windowOfTableWord nbits w
  { s with mem := storeBytes s.mem s.pc [v.op, v.a, v.b] }

end Sys2Proof.Machine
end

