-- ==== Sys2Proof/Machine/HostInterface.lean ====
section
/-! DEFINITION. What the host does to CORE and reads from it: the program load before the first step and the text of the
output channel (spec/20_memory.md R59, spec/40_execution_loop.md R112, spec/70_reset_and_hazards.md R210). The parsing of a
listing's text is outside the block (spec/00_scope.md R5). -/

namespace Sys2Proof.Machine

/-- Why a program image is refused; CORE then does not start (R59, R197). -/
inductive LoadRefusal where
  /-- The image is longer than 256 bytes. -/
  | imageTooLong (length : Nat)
  /-- The image holds a value outside 0 to 255; `value` is the first. -/
  | valueTooLarge (value : Nat)
  deriving DecidableEq, Repr

/-- The host's load (R59, R112, R210): image byte i goes to address i, the other cells stay 0, and the machine is as
reset left it. An image that is too long and also holds a value too large is refused for its length (DESIGN CHOICE,
assumption 7). -/
def load (image : List Nat) : Except LoadRefusal State :=
  if Config.memSize < image.length then .error (.imageTooLong image.length)
  else
    match image.find? (fun v => decide (255 < v)) with
    | some v => .error (.valueTooLarge v)
    | none =>
      .ok { State.reset with mem := storeBytes State.reset.mem Config.loadBase (image.map (BitVec.ofNat 8)) }

/-- The text the host makes of the output channel: each value as a decimal integer and a newline, in order (R36,
R112). -/
def outputText (s : State) : String :=
  s.out.foldl (fun text v => text ++ toString v.toNat ++ "\n") ""

end Sys2Proof.Machine
end

