-- ==== Sys2Proof/Safety.lean ====
section
/-! DEFINITION. What the claims speak of: the invariant of the state, the end of a run, and the stack of pushed bytes. -/

namespace Sys2Proof

open Sys2Proof.Machine

/-- A fault record of a machine that stopped at `pc`, as R34 and R181 to R186 describe it: its code and pc, which fields
it holds and which values can stand in them. UnsupportedOperation never stands in one (R183). -/
structure RecordOk (pc : Nat) (r : FaultRecord) : Prop where
  code_eq : r.code = faultCode r.kind
  pc_eq : r.pc = pc
  kind_reachable : r.kind ≠ .unsupportedOperation
  space_iff : r.space.isSome ↔ r.kind = .addressOutOfRange
  opcode_none : r.opcode = none ↔ r.space = some .mem ∧ pc = Config.pcMax
  unknown_value : r.kind = .unknownOpcode →
    ∃ op, r.opcode = some op ∧ select op = .illegal ∧ r.value = op.toNat
  mem_value : r.space = some .mem → r.value = 256
  reg_value : r.space = some .reg → Config.nregs ≤ r.value ∧ r.value ≤ 255
  overflow_value : r.kind = .stackOverflow → r.value = Config.stackFloor
  underflow_value : r.kind = .stackUnderflow → r.value = Config.spReset

/-- The status is Running or Halted, or its record is one the spec describes. -/
def StatusOk (s : State) : Prop :=
  ∀ r, s.status = .faulted r → RecordOk s.pc r

/-- The invariant of CORE's state: memory in its canonical form (R50), PC in 0..256 (R25), SP in 0..0xF4 (R29), and a
fault record as the spec describes it. -/
structure StateInv (s : State) : Prop where
  mem_wf : Memory.wf s.mem = true
  pc_le : s.pc ≤ Config.pcMax
  sp_le : s.sp ≤ Config.spReset
  status_ok : StatusOk s

/-- The state after at most `k` steps: the run stops at the first state from which no step exists (R110). -/
def stateAfter : Nat → State → State
  | 0, s => s
  | k + 1, s =>
    match step s with
    | .next t => stateAfter k t
    | _ => s

/-- `s` stopped by a fault with this record, and nothing else changed (R186). -/
def Machine.State.stoppedBy (s : State) (r : FaultRecord) : State := { s with status := .faulted r }

/-- Every byte of memory reads in `t` as it read in `s`. -/
def KeepsMemory (s t : State) : Prop := ∀ a, byteAt t.mem a = byteAt s.mem a

/-- Every register reads in `t` as it read in `s`. -/
def KeepsRegs (s t : State) : Prop := ∀ q, readReg t q = readReg s q

/-- Every register but `r` reads in `t` as it read in `s`. -/
def KeepsRegsBut (r : RegIdx) (s t : State) : Prop := ∀ q, q ≠ r → readReg t q = readReg s q

/-- `t` is `s` stopped by AddressOutOfRange in space REG, with this index as its value (R23). -/
def RegisterFault (s t : State) (index : Byte) : Prop :=
  ∃ r : FaultRecord, t = s.stoppedBy r ∧
    r.kind = .addressOutOfRange ∧ r.space = some .reg ∧ r.value = index.toNat

/-- One check of a step: whether it fails, the opcode byte read before it, and the fault it raises. -/
structure StepCheck where
  fails  : Bool
  opcode : Option Byte
  cause  : Cause

/-- The checks of one step in the order of R189 (the spec's decision D9; UNVERIFIED, assumption 2), written from that list and not
from the step: the three fetch reads, the decode, the two register checks, the stack check. -/
def stepChecks (s : State) : List StepCheck :=
  let op := byteAt s.mem s.pc
  let a := byteAt s.mem (s.pc + 1)
  let b := byteAt s.mem (s.pc + 2)
  [ ⟨decide (256 ≤ s.pc), none, .addressOutOfRange .mem s.pc⟩,
    ⟨decide (256 ≤ s.pc + 1), some op, .addressOutOfRange .mem (s.pc + 1)⟩,
    ⟨decide (256 ≤ s.pc + 2), some op, .addressOutOfRange .mem (s.pc + 2)⟩,
    ⟨decide (op ∉ ([0x01, 0x82, 0x47, 0x46, 0x45, 0xA2] : List Byte)), some op, .unknownOpcode op⟩,
    ⟨decide (op ∈ ([0x82, 0x47, 0x46, 0x45, 0xA2] : List Byte) ∧ 8 ≤ a.toNat), some op,
      .addressOutOfRange .reg a.toNat⟩,
    ⟨decide (op = 0xA2 ∧ 8 ≤ b.toNat), some op, .addressOutOfRange .reg b.toNat⟩,
    ⟨decide (op = 0x45 ∧ s.sp = 0), some op, .stackOverflow s.sp⟩,
    ⟨decide (op = 0x46 ∧ 0xF4 ≤ s.sp), some op, .stackUnderflow s.sp⟩ ]

/-- One request of a program to the stack (R137). -/
inductive StackOp where
  | push (r : RegIdx)
  | pop (r : RegIdx)
  deriving DecidableEq, Repr

/-- The instruction of a stack request. -/
def StackOp.instr : StackOp → Instr
  | .push r => .push (BitVec.ofNat 8 r.val)
  | .pop r => .pop (BitVec.ofNat 8 r.val)

/-- How many pushes a sequence makes. -/
def pushes : List StackOp → Nat
  | [] => 0
  | .push _ :: ops => pushes ops + 1
  | .pop _ :: ops => pushes ops

/-- How many pops a sequence makes. -/
def pops : List StackOp → Nat
  | [] => 0
  | .push _ :: ops => pops ops
  | .pop _ :: ops => pops ops + 1

/-- Every prefix has at least as many pushes as pops (R137). -/
def NeverPopsEmpty (ops : List StackOp) : Prop := ∀ k, pops (ops.take k) ≤ pushes (ops.take k)

/-- Execute instructions one after another; `none` when one of them does not complete (it faults or halts). -/
def runInstrs : List Instr → State → Option State
  | [], s => some s
  | i :: is, s =>
    match exec i s with
    | .next t => if t.status = .running then runInstrs is t else none
    | _ => none

/-- The same requests on a stack of its own, the latest push first, over the same register file: what R137 says PUSH and
POP do. `none` when a pop finds no pushed byte. -/
def runOnStack : List StackOp → Vector Byte Config.nregs × List Byte → Option (Vector Byte Config.nregs × List Byte)
  | [], c => some c
  | .push r :: ops, (x, st) => runOnStack ops (x, x[r] :: st)
  | .pop _ :: _, (_, []) => none
  | .pop r :: ops, (x, v :: st) => runOnStack ops (x.set r v, st)

end Sys2Proof
end

