-- ==== Sys2Proof/Certificates/Slice0/Obligations.lean ====
section
/-! DEFINITION. The statements for the provers, in the order of OBLIGATIONS.json. Where a clause rests on one of the
spec's own decisions (spec/92_eei_decisions.md) or on the model's own choice, the docstring names it. -/

open Sys2Proof Sys2Proof.Machine

/-! ### Reset and the program load -/

/-- R24, R27, R31: every register holds 0, PC holds 0 and SP holds 0xF4 after reset. -/
def Obligations.ResetRegistersPcAndStackPointer : Prop :=
  (∀ r, readReg State.reset r = 0) ∧ State.reset.pc = 0 ∧ State.reset.sp = 0xF4

/-- The rest of reset (10_state.md section 9): every memory cell is 0, FL is 0x00 (decision D11), the status is Running
(D12) and the output channel is empty (D14). -/
def Obligations.ResetMemoryFlagsStatusAndOutput : Prop :=
  (∀ a, byteAt State.reset.mem a = 0) ∧ State.reset.fl = 0x00 ∧ State.reset.status = .running ∧
    State.reset.out = []

/-- The host's load (R59, R210; decision D20): an image of at most 256 bytes, each 0 to 255, is accepted; image byte i
stands at address i, every other cell is 0, and the rest of the state is as reset left it. -/
def Obligations.LoadPlacesTheImage : Prop :=
  ∀ image : List Nat, image.length ≤ 256 → (∀ v ∈ image, v ≤ 255) →
    ∃ s, load image = .ok s ∧ StateInv s ∧ (∀ a, (byteAt s.mem a).toNat = image.getD a 0) ∧
      (∀ r, readReg s r = 0) ∧ s.pc = 0 ∧ s.sp = 0xF4 ∧ s.fl = 0x00 ∧ s.status = .running ∧ s.out = []

/-- The host's load (R59, R197; decision D20): an image that is too long or holds a value above 255 is refused. -/
def Obligations.LoadRefusesAnImageThatDoesNotFit : Prop :=
  ∀ image : List Nat, (256 < image.length ∨ ∃ v ∈ image, 255 < v) → ∃ why, load image = .error why

/-! ### The invariant -/

/-- The state after reset meets the invariant. -/
def Obligations.ResetMeetsTheInvariant : Prop := StateInv State.reset

/-- Every step keeps the invariant: memory stays canonical, PC stays in 0..256 (decision D6), SP stays in 0..0xF4
(decisions D7 and D8), and a fault record is one that R34 and R180 to R186 describe (decision D3). -/
def Obligations.StepKeepsTheInvariant : Prop :=
  ∀ s t, StateInv s → step s = .next t → StateInv t

/-! ### The memory array -/

/-- `MemRead` (20_memory.md section 2): the byte inside the array, AddressOutOfRange(MEM, addr) outside it. -/
def Obligations.MemReadChecksBounds : Prop :=
  ∀ (m : Memory) (addr : Nat),
    (addr < 256 → memRead m addr = .ok (byteAt m addr)) ∧
      (256 ≤ addr → memRead m addr = .error (.addressOutOfRange .mem addr))

/-- `MemWrite` (20_memory.md section 2) on a canonical memory: inside the array the cell takes the byte, no other cell
changes and the memory stays canonical; outside it, AddressOutOfRange(MEM, addr). -/
def Obligations.MemWriteChangesOneCell : Prop :=
  ∀ (m : Memory) (addr : Nat) (v : Byte), Memory.wf m = true →
    (addr < 256 → ∃ m', memWrite m addr v = .ok m' ∧ Memory.wf m' = true ∧
      ∀ a, memRead m' a = if a = addr then .ok v else memRead m a) ∧
      (256 ≤ addr → memWrite m addr v = .error (.addressOutOfRange .mem addr))

/-! ### Encoding -/

/-- Decoding and encoding agree, both ways and for every instruction and operand byte: three fetched bytes decode to an
instruction exactly when they begin with its bytes (30_encoding.md sections 1 to 5). The bytes after them are free. -/
def Obligations.DecodeAgreesWithEncode : Prop :=
  ∀ (i : Instr) (w : Window), decode w = .instr i ↔ encode i <+: [w.op, w.a, w.b]

/-- The word of an instruction's bytes, the first byte the least significant, decodes to it at its own length
(30_encoding.md section 4, opcode_table.json). -/
def Obligations.TableWordRoundTrip : Prop :=
  ∀ i : Instr, decodeTableWord (8 * (encode i).length)
    ((encode i).foldr (fun b rest => b.toNat + 256 * rest) 0) = some i

/-- R77: each instruction's opcode, its fields n, alu and id, its format and its handler group. -/
def Obligations.OpcodeMap : Prop :=
  (∀ a b : Byte,
    decode ⟨0x01, a, b⟩ = .instr .hlt ∧ encode .hlt = [0x01] ∧
    decode ⟨0x82, a, b⟩ = .instr (.ldi a b) ∧ encode (.ldi a b) = [0x82, a, b] ∧
    decode ⟨0x47, a, b⟩ = .instr (.prn a) ∧ encode (.prn a) = [0x47, a] ∧
    decode ⟨0x46, a, b⟩ = .instr (.pop a) ∧ encode (.pop a) = [0x46, a] ∧
    decode ⟨0x45, a, b⟩ = .instr (.push a) ∧ encode (.push a) = [0x45, a] ∧
    decode ⟨0xA2, a, b⟩ = .instr (.mul a b) ∧ encode (.mul a b) = [0xA2, a, b]) ∧
  ([0x01, 0x82, 0x47, 0x46, 0x45, 0xA2] : List Byte).map
      (fun op => (operandCount op, aluFlag op, opId op, decide (select op = .alu))) =
    [(0, false, 1, false), (2, false, 2, false), (1, false, 7, false), (1, false, 6, false), (1, false, 5, false),
      (2, true, 2, true)]

/-- R104: the decoder's two outputs for every opcode byte. -/
def Obligations.DecoderOutputs : Prop :=
  ∀ op : Byte, operandCount op = op.toNat / 64 ∧
    select op =
      (if op = 0x01 then .hlt else if op = 0x82 then .ldi else if op = 0x47 then .prn
       else if op = 0x46 then .pop else if op = 0x45 then .push else if op = 0xA2 then .alu else .illegal)

/-- Words written out from the encodings of 30_encoding.md sections 4 and 5 (the first byte lowest): a few instructions,
and three illegal bytes. -/
def Obligations.SampleWordsDecode : Prop :=
  decodeTableWord 8 0b00000001 = some .hlt ∧
  decodeTableWord 24 0b11111111_00000011_10000010 = some (.ldi 3 255) ∧
  decodeTableWord 16 0b00000101_01000111 = some (.prn 5) ∧
  decodeTableWord 16 0b00000010_01000110 = some (.pop 2) ∧
  decodeTableWord 16 0b00000111_01000101 = some (.push 7) ∧
  decodeTableWord 24 0b00000001_00000000_10100010 = some (.mul 0 1) ∧
  decodeTableWord 24 0b00000001_00000000_10100000 = none ∧
  decodeTableWord 8 0b11111111 = none ∧
  decodeTableWord 8 0b00000000 = none

/-- The illegal bytes (30_encoding.md section 6; decision D4): 250 of them, among them 0x00, every byte with operand
count 3 and every byte with bit 5 set but 0xA2. -/
def Obligations.TwoHundredFiftyIllegalBytes : Prop :=
  ((List.range 256).filter fun v => decide (select (BitVec.ofNat 8 v) = .illegal)).length = 250 ∧
    select 0x00 = .illegal ∧
    ∀ op : Byte, (operandCount op = 3 → select op = .illegal) ∧
      (aluFlag op = true → op ≠ 0xA2 → select op = .illegal)

/-! ### The step -/

/-- A step runs the decoded instruction (40_execution_loop.md sections 2, 3 and 5): in a Running state whose three bytes
at pc are inside memory and decode to an instruction, the step is that instruction's execution. Nothing is added around
it: the meaning itself advances PC. -/
def Obligations.StepRunsTheDecodedInstruction : Prop :=
  ∀ (s : State) (i : Instr), s.status = .running → s.pc ≤ 253 →
    decode ⟨byteAt s.mem s.pc, byteAt s.mem (s.pc + 1), byteAt s.mem (s.pc + 2)⟩ = .instr i →
    step s = exec i s

/-- A fetch at 254, 255 or 256 (40_execution_loop.md section 2; decision D5): AddressOutOfRange(MEM, 256), whatever the
bytes; the record holds the opcode byte unless pc is 256; nothing else changes. -/
def Obligations.FetchPastTheEndFaults : Prop :=
  ∀ s : State, s.status = .running → 254 ≤ s.pc → s.pc ≤ 256 →
    step s = .next (s.stoppedBy
      { kind := .addressOutOfRange, code := 0x02, pc := s.pc,
        opcode := if s.pc = 256 then none else some (byteAt s.mem s.pc), space := some .mem, value := 256 })

/-- An illegal opcode byte (30_encoding.md section 6, 60_exceptions.md section 1; decisions D3 and D4): UnknownOpcode
with the byte as its value; PC does not advance and nothing else changes. -/
def Obligations.IllegalByteRaisesUnknownOpcode : Prop :=
  ∀ (s : State) (op : Byte), s.status = .running → s.pc ≤ 253 → byteAt s.mem s.pc = op →
    op ∉ ([0x01, 0x82, 0x47, 0x46, 0x45, 0xA2] : List Byte) →
    step s = .next (s.stoppedBy
      { kind := .unknownOpcode, code := 0x01, pc := s.pc, opcode := some op, space := none, value := op.toNat })

/-- No step exists once the status is Halted or Faulted (40_execution_loop.md section 1; decision D12). That the model
answers a fault there is its own choice (assumption 1). -/
def Obligations.NoStepOnceStopped : Prop :=
  ∀ s : State, (s.status = .halted → step s = .fault .alreadyHalted) ∧
    ∀ r, s.status = .faulted r → step s = .fault (.alreadyFaulted r)

/-- A fault is precise (60_exceptions.md section 2; decision D10): a step that ends Faulted changes nothing but the
status. -/
def Obligations.FaultIsPrecise : Prop :=
  ∀ (s t : State) (r : FaultRecord), step s = .next t → t.status = .faulted r →
    t = s.stoppedBy r

/-- The first failing check decides the fault, and a step whose checks all hold does not fault (60_exceptions.md section
3; decision D9): it halts on HLT and stays Running on every other instruction. -/
def Obligations.FirstFailingCheckDecides : Prop :=
  ∀ s : State, StateInv s → s.status = .running →
    ∃ t, step s = .next t ∧
      match (stepChecks s).find? StepCheck.fails with
      | some c => t = takeFault s c.opcode c.cause
      | none => t.status = if byteAt s.mem s.pc = 0x01 then .halted else .running

/-- Every run ends by step 128 (40_execution_loop.md section 6; that it ends where pc reaches 254 or above is decision D5,
assumption 2): from any Running state some number of steps from 1 to 128, each from a Running state, reaches a state
that is not Running. -/
def Obligations.RunEndsByStep128 : Prop :=
  ∀ s : State, s.status = .running →
    ∃ k, 1 ≤ k ∧ k ≤ 128 ∧ (∀ j, j < k → (stateAfter j s).status = .running) ∧
      (stateAfter k s).status ≠ .running

/-! ### The program counter -/

/-- R106: after a step that neither halts nor faults, PC is pc + n + 1 with n the top two bits of the step's opcode, with
no wrap; n + 1 is the length in bytes of each instruction; and the result may be 256. -/
def Obligations.PcAdvancesByOperandCountPlusOne : Prop :=
  (∀ s t : State, step s = .next t → t.status = .running →
    t.pc = s.pc + (byteAt s.mem s.pc).toNat / 64 + 1) ∧
  (∀ i : Instr, (encode i).length = (opcodeOf i).toNat / 64 + 1) ∧
  ∃ s t : State, step s = .next t ∧ t.status = .running ∧ t.pc = 256

/-- R107: PC does not advance on HLT, nor on any fault. -/
def Obligations.PcHeldOnHaltAndFault : Prop :=
  ∀ s t : State, step s = .next t →
    (byteAt s.mem s.pc = 0x01 → t.pc = s.pc) ∧ (∀ r, t.status = .faulted r → t.pc = s.pc) ∧
      (t.status = .halted → byteAt s.mem s.pc = 0x01)

/-- The top of memory (70_reset_and_hazards.md section 3; decisions D5 and D6): LDI and MUL at 253 leave PC at 256, PRN,
POP and PUSH there leave it at 255, and the next step faults with AddressOutOfRange(MEM, 256). -/
def Obligations.InstructionAt253RunsIntoTheEnd : Prop :=
  ∀ s t : State, s.pc = 253 → step s = .next t → t.status = .running →
    (byteAt s.mem 253 = 0x82 ∨ byteAt s.mem 253 = 0xA2 → t.pc = 256) ∧
    (byteAt s.mem 253 = 0x47 ∨ byteAt s.mem 253 = 0x46 ∨ byteAt s.mem 253 = 0x45 → t.pc = 255) ∧
    step t = .next (t.stoppedBy
      { kind := .addressOutOfRange, code := 0x02, pc := t.pc,
        opcode := if t.pc = 256 then none else some (byteAt t.mem 255), space := some .mem, value := 256 })

/-! ### The instructions -/

/-- HLT (41_data_control.md section 1; its fetch faults are decision D5): the status becomes Halted and nothing else
changes, PC included; a running machine with HLT at pc at most 253 halts in one step and then has no step; at 254 and 255
it faults in the fetch. -/
def Obligations.HltHalts : Prop :=
  ∀ s : State,
    exec .hlt s = .next { s with status := .halted } ∧
    (s.status = .running → byteAt s.mem s.pc = 0x01 →
      (s.pc ≤ 253 → step s = .next { s with status := .halted } ∧
        ∀ u, step { s with status := .halted } ≠ .next u) ∧
      (s.pc = 254 ∨ s.pc = 255 → ∃ r : FaultRecord, step s = .next (s.stoppedBy r) ∧
        r.kind = .addressOutOfRange ∧ r.space = some .mem))

/-- R131: LDI's encoding, its result and frame for an index below 8, and its fault for any other. -/
def Obligations.LdiLoadsTheImmediate : Prop :=
  (∀ a b : Byte, decode ⟨0x82, a, b⟩ = .instr (.ldi a b) ∧ encode (.ldi a b) = [0x82, a, b]) ∧
  operandCount 0x82 = 2 ∧
  ∀ (ra imm8 : Byte) (s : State),
    (∀ r : RegIdx, ra.toNat = r.val →
      ∃ t, exec (.ldi ra imm8) s = .next t ∧ readReg t r = imm8 ∧ t.pc = s.pc + 3 ∧ KeepsRegsBut r s t ∧
        KeepsMemory s t ∧ t.sp = s.sp ∧ t.fl = s.fl ∧ t.out = s.out ∧ t.status = s.status) ∧
    (8 ≤ ra.toNat → ∃ t, exec (.ldi ra imm8) s = .next t ∧ RegisterFault s t ra)

/-- R132: PRN's encoding, its output and frame for an index below 8, its fault for any other, and the text the host
makes of the value. -/
def Obligations.PrnEmitsTheRegister : Prop :=
  (∀ a b : Byte, decode ⟨0x47, a, b⟩ = .instr (.prn a) ∧ encode (.prn a) = [0x47, a]) ∧
  operandCount 0x47 = 1 ∧
  ∀ (ra : Byte) (s : State),
    (∀ r : RegIdx, ra.toNat = r.val →
      ∃ t, exec (.prn ra) s = .next t ∧ t.out = s.out ++ [readReg s r] ∧ t.pc = s.pc + 2 ∧ KeepsRegs s t ∧
        KeepsMemory s t ∧ t.sp = s.sp ∧ t.fl = s.fl ∧ t.status = s.status ∧
        outputText t = outputText s ++ toString (readReg s r).toNat ++ "\n") ∧
    (8 ≤ ra.toNat → ∃ t, exec (.prn ra) s = .next t ∧ RegisterFault s t ra)

/-- POP with an index below 8 and a stack that is not empty (41_data_control.md section 1): the register takes the byte
at SP, then SP goes up by one; the cell is not cleared and nothing else changes but PC. -/
def Obligations.PopReadsThenIncrements : Prop :=
  ∀ (ra : Byte) (r : RegIdx) (s : State), ra.toNat = r.val → s.sp < 0xF4 →
    ∃ t, exec (.pop ra) s = .next t ∧ readReg t r = byteAt s.mem s.sp ∧ t.sp = s.sp + 1 ∧ t.pc = s.pc + 2 ∧
      KeepsRegsBut r s t ∧ KeepsMemory s t ∧ t.fl = s.fl ∧ t.out = s.out ∧ t.status = s.status

/-- PUSH with an index below 8 and SP from 1 to 0xF4, on a canonical memory (41_data_control.md section 1): SP goes down
by one and the register's byte goes to the cell it then names; no other cell and nothing else changes but PC. -/
def Obligations.PushDecrementsThenWrites : Prop :=
  ∀ (ra : Byte) (r : RegIdx) (s : State), Memory.wf s.mem = true → ra.toNat = r.val → 0 < s.sp → s.sp ≤ 0xF4 →
    ∃ t, exec (.push ra) s = .next t ∧ t.sp = s.sp - 1 ∧ byteAt t.mem (s.sp - 1) = readReg s r ∧
      (∀ a, a ≠ s.sp - 1 → byteAt t.mem a = byteAt s.mem a) ∧ t.pc = s.pc + 2 ∧ KeepsRegs s t ∧
      t.fl = s.fl ∧ t.out = s.out ∧ t.status = s.status

/-- R161: MUL's encoding; for indices below 8 its result, the low 8 bits of the product of the values before it, its
frame and its commutativity in the values; and its faults, the first index before the second. -/
def Obligations.MulKeepsTheLowEightBits : Prop :=
  (∀ a b : Byte, decode ⟨0xA2, a, b⟩ = .instr (.mul a b) ∧ encode (.mul a b) = [0xA2, a, b]) ∧
  operandCount 0xA2 = 2 ∧
  ∀ (ra rb : Byte) (s : State),
    (∀ r q : RegIdx, ra.toNat = r.val → rb.toNat = q.val →
      ∃ t, exec (.mul ra rb) s = .next t ∧
        (readReg t r).toNat = (readReg s r).toNat * (readReg s q).toNat % 256 ∧ t.pc = s.pc + 3 ∧
        KeepsRegsBut r s t ∧ KeepsMemory s t ∧ t.sp = s.sp ∧ t.fl = s.fl ∧ t.out = s.out ∧ t.status = s.status ∧
        ∀ s', readReg s' r = readReg s q → readReg s' q = readReg s r →
          ∃ t', exec (.mul ra rb) s' = .next t' ∧ readReg t' r = readReg t r) ∧
    (8 ≤ ra.toNat → ∃ t, exec (.mul ra rb) s = .next t ∧ RegisterFault s t ra) ∧
    (ra.toNat < 8 → 8 ≤ rb.toNat → ∃ t, exec (.mul ra rb) s = .next t ∧ RegisterFault s t rb)

/-- PUSH on a full stack (41_data_control.md section 1, 60_exceptions.md section 1; decisions D3 and D7):
StackOverflow(0), and nothing else changes. -/
def Obligations.PushOnFullStackFaults : Prop :=
  ∀ (ra : Byte) (s : State), ra.toNat < 8 → s.sp = 0 →
    exec (.push ra) s = .next (s.stoppedBy
      { kind := .stackOverflow, code := 0x04, pc := s.pc, opcode := some 0x45, space := none, value := 0 })

/-- POP on an empty stack (41_data_control.md section 1, 60_exceptions.md section 1; decisions D3 and D8):
StackUnderflow(SP), and nothing else changes. -/
def Obligations.PopOnEmptyStackFaults : Prop :=
  ∀ (ra : Byte) (s : State), ra.toNat < 8 → 0xF4 ≤ s.sp →
    exec (.pop ra) s = .next (s.stoppedBy
      { kind := .stackUnderflow, code := 0x05, pc := s.pc, opcode := some 0x46, space := none, value := s.sp })

/-- The register-index check (10_state.md section 2): an instruction one of whose register index bytes is 8 or more
raises AddressOutOfRange in space REG with the first such byte, whole, as its value, and changes no other state; the
check itself passes a byte below 8 as the index and raises that fault on any other. That MUL reports its first index
before its second is 42_alu.md section 2 and 60_exceptions.md section 3 (decision D9, assumption 2). -/
def Obligations.RegisterIndexIsChecked : Prop :=
  (∀ index : Byte, (∀ r : RegIdx, index.toNat = r.val → checkReg index = .ok r) ∧
    (8 ≤ index.toNat → checkReg index = .error (.addressOutOfRange .reg index.toNat))) ∧
  ∀ (i : Instr) (s : State) (index : Byte),
    i.regOperands.find? (fun r => decide (8 ≤ r.toNat)) = some index →
    ∃ t, exec i s = .next t ∧ RegisterFault s t index

/-! ### alu_dispatch -/

/-- R165: alu_dispatch writes only its destination register; no flag, no memory and no other register. -/
def Obligations.AluWritesOnlyItsDestination : Prop :=
  ∀ (op a b : Byte) (s t : State), aluDispatch op a b s = .ok t →
    ∃ r : RegIdx, a.toNat = r.val ∧ KeepsRegsBut r s t ∧ KeepsMemory s t ∧ t.fl = s.fl ∧ t.sp = s.sp ∧
      t.out = s.out ∧ t.status = s.status

/-- alu_dispatch is total (42_alu.md sections 1 and 3; decision D4): an opcode that is not in its table raises
UnsupportedOperation, whatever the operands; that this check stands before the register checks is the model's choice
(assumption 8). For MUL it never raises it. -/
def Obligations.AluRejectsOtherOpcodes : Prop :=
  ∀ (op a b : Byte) (s : State), aluDispatch op a b s = .error (.unsupportedOperation op) ↔ op ≠ 0xA2

/-! ### Frames and whole-machine rules -/

/-- The frame of the forms that store nothing, HLT, LDI, PRN, POP and MUL, whether they complete or fault
(10_state.md sections 2 to 7, 20_memory.md section 3): every byte of memory, FL, every register but the destination of
LDI, POP and MUL, SP but for POP, and the output channel but for PRN. -/
def Obligations.FrameOfFormsThatStoreNothing : Prop :=
  ∀ (i : Instr) (s t : State), (∀ ra, i ≠ .push ra) → exec i s = .next t →
    KeepsMemory s t ∧ t.fl = s.fl ∧
    (∀ q : RegIdx, readReg t q ≠ readReg s q →
      (∃ ra imm8, i = .ldi ra imm8 ∧ ra.toNat = q.val) ∨ (∃ ra, i = .pop ra ∧ ra.toNat = q.val) ∨
        ∃ ra rb, i = .mul ra rb ∧ ra.toNat = q.val) ∧
    ((∀ ra, i ≠ .pop ra) → t.sp = s.sp) ∧ ((∀ ra, i ≠ .prn ra) → t.out = s.out)

/-- The frame of PUSH, on a canonical memory (20_memory.md section 3): every register, FL, the output channel, and every
byte of memory but the one at the address the stack_controller gives, which is SP - 1; where it gives none, every
byte and SP. -/
def Obligations.FrameOfPush : Prop :=
  ∀ (ra : Byte) (s t : State), Memory.wf s.mem = true → exec (.push ra) s = .next t →
    KeepsRegs s t ∧ t.fl = s.fl ∧ t.out = s.out ∧
    (∀ access, stackPush s.sp = .ok access →
      access.addr = s.sp - 1 ∧ (∀ a, a ≠ access.addr → byteAt t.mem a = byteAt s.mem a) ∧
        (t.sp = s.sp ∨ t.sp = access.spNext)) ∧
    (∀ c, stackPush s.sp = .error c → KeepsMemory s t ∧ t.sp = s.sp)

/-- SP is changed only by PUSH, which takes one from it, and by POP, which adds one (10_state.md section 4). -/
def Obligations.OnlyPushAndPopMoveSp : Prop :=
  ∀ (i : Instr) (s t : State), exec i s = .next t → t.sp ≠ s.sp →
    (∃ ra, i = .push ra ∧ t.sp + 1 = s.sp) ∨ (∃ ra, i = .pop ra ∧ t.sp = s.sp + 1)

/-- Only PUSH writes memory, and only the cell below SP, with the register its operand names (20_memory.md
section 3). -/
def Obligations.OnlyPushWritesMemory : Prop :=
  ∀ (s t : State) (a : Nat), StateInv s → step s = .next t → byteAt t.mem a ≠ byteAt s.mem a →
    byteAt s.mem s.pc = 0x45 ∧ a + 1 = s.sp ∧
      ∃ r : RegIdx, (byteAt s.mem (s.pc + 1)).toNat = r.val ∧ byteAt t.mem a = readReg s r

/-- No step writes a cell from 0xF4 upward: the stack region ends at 0xF3 (20_memory.md section 5, 41_data_control.md
section 2; the bound on SP is decisions D7 and D8). -/
def Obligations.CellsAboveTheStackNeverChange : Prop :=
  ∀ (s t : State) (a : Nat), StateInv s → step s = .next t → 0xF4 ≤ a → byteAt t.mem a = byteAt s.mem a

/-- Only PRN changes the output channel: it appends the register its operand names, and no step takes a value away
(10_state.md section 7; decision D14). -/
def Obligations.OnlyPrnExtendsTheOutput : Prop :=
  ∀ s t : State, step s = .next t → t.out = s.out ∨
    (byteAt s.mem s.pc = 0x47 ∧
      ∃ r : RegIdx, (byteAt s.mem (s.pc + 1)).toNat = r.val ∧ t.out = s.out ++ [readReg s r])

/-- No step reads or writes FL (10_state.md section 5): the step keeps it, and with another FL the step does the same
and keeps that one. -/
def Obligations.FlIsNeitherReadNorWritten : Prop :=
  ∀ (s t : State) (v : Byte), step s = .next t →
    t.fl = s.fl ∧ step { s with fl := v } = .next { t with fl := v }

/-- No instruction reads PC as data (10_state.md section 3): executed at another PC, an instruction leaves the same
registers, memory, SP, FL and output, and completes, halts or faults alike. -/
def Obligations.PcIsNeverData : Prop :=
  ∀ (i : Instr) (s t : State) (p : Nat), exec i s = .next t →
    ∃ t', exec i { s with pc := p } = .next t' ∧ KeepsRegs t t' ∧ KeepsMemory t t' ∧ t'.sp = t.sp ∧
      t'.fl = t.fl ∧ t'.out = t.out ∧ t'.pc + s.pc = t.pc + p ∧
      (t'.status = t.status ∨
        ∃ r : FaultRecord, t.status = .faulted r ∧ t'.status = .faulted { r with pc := p })

/-- Code may modify itself (20_memory.md section 6, 70_reset_and_hazards.md section 3): the byte a completed PUSH wrote is
what every later fetch of that cell reads, already at the next step. -/
def Obligations.PushedByteIsFetchedNext : Prop :=
  ∀ (s t : State) (r : RegIdx), StateInv s → byteAt s.mem s.pc = 0x45 → (byteAt s.mem (s.pc + 1)).toNat = r.val →
    step s = .next t → t.status = .running → t.pc ≤ 253 →
    ∃ w, fetch t = .ok w ∧ (t.pc = t.sp → w.op = readReg s r) ∧ (t.pc + 1 = t.sp → w.a = readReg s r) ∧
      (t.pc + 2 = t.sp → w.b = readReg s r)

/-- The word placed for the fetch is the word that runs, from any Running state with a canonical memory and room for it
(the host's interface; assumption 9). -/
def Obligations.PlacedWordRuns : Prop :=
  ∀ (s : State) (nbits w : Nat) (i : Instr), Memory.wf s.mem = true → s.status = .running → s.pc ≤ 253 →
    decodeTableWord nbits w = some i →
    step (s.withFetchWord nbits w) = exec i (s.withFetchWord nbits w)

/-! ### The stack law (41_data_control.md section 2) -/

/-- PUSH and POP refine a stack of their own: a sequence of them that runs without a fault, with at least as many pushes
as pops in every prefix, does to the registers what the same requests do on a stack of bytes; the bytes still on it are
at SP upward, the latest first, and no cell from the old SP upward has changed. So each POP returns the byte of the
latest PUSH not yet popped. -/
def Obligations.PushAndPopRefineAStack : Prop :=
  ∀ (ops : List StackOp) (s t : State), StateInv s → NeverPopsEmpty ops →
    runInstrs (ops.map StackOp.instr) s = some t →
    ∃ st, runOnStack ops (s.x, []) = some (t.x, st) ∧ t.sp + st.length = s.sp ∧
      (∀ k, k < st.length → byteAt t.mem (t.sp + k) = st.getD k 0) ∧
      ∀ a, s.sp ≤ a → byteAt t.mem a = byteAt s.mem a

/-- A balanced sequence of PUSH and POP that runs without a fault leaves SP where it was. -/
def Obligations.BalancedStackRestoresSp : Prop :=
  ∀ (ops : List StackOp) (s t : State), StateInv s → NeverPopsEmpty ops → pops ops = pushes ops →
    runInstrs (ops.map StackOp.instr) s = some t → t.sp = s.sp

/-- A sequence of PUSH and POP with at least as many pushes as pops in every prefix, and no more pushes than SP has room
for, runs from a Running state without a fault. -/
def Obligations.StackSequenceWithRoomCompletes : Prop :=
  ∀ (ops : List StackOp) (s : State), StateInv s → s.status = .running → NeverPopsEmpty ops →
    pushes ops ≤ s.sp →
    ∃ t, runInstrs (ops.map StackOp.instr) s = some t

/-- PUSH Ra then POP Ra restores the registers and SP, and advances PC by 4. -/
def Obligations.PushThenPopRestores : Prop :=
  ∀ (r : RegIdx) (s : State), StateInv s → s.status = .running → 0 < s.sp →
    ∃ t, runInstrs [.push (BitVec.ofNat 8 r.val), .pop (BitVec.ofNat 8 r.val)] s = some t ∧
      KeepsRegs s t ∧ t.sp = s.sp ∧ t.pc = s.pc + 4 ∧ t.fl = s.fl ∧ t.out = s.out ∧
      ∀ a, a + 1 ≠ s.sp → byteAt t.mem a = byteAt s.mem a
end

