-- ==== Sys2Proof/Laws/Decode.lean ====
section
/-! SUPPORT. What the decoder can answer, said once. -/

namespace Sys2Proof

/-- The six legal opcodes with their selection, or none of them and the illegal selection (R77, R79, R104). -/
theorem select_cases (op : Byte) :
    (op = opHlt ∧ select op = .hlt) ∨ (op = opLdi ∧ select op = .ldi) ∨ (op = opPrn ∧ select op = .prn) ∨
      (op = opPop ∧ select op = .pop) ∨ (op = opPush ∧ select op = .push) ∨ (op = opMul ∧ select op = .alu) ∨
      (op ∉ [opHlt, opLdi, opPrn, opPop, opPush, opMul] ∧ select op = .illegal) := by
  unfold select
  by_cases h1 : op = opHlt
  · simp [h1]
  by_cases h2 : op = opLdi
  · subst h2; simp [h1]
  by_cases h3 : op = opPrn
  · subst h3; simp [h1, h2]
  by_cases h4 : op = opPop
  · subst h4; simp [h1, h2, h3]
  by_cases h5 : op = opPush
  · subst h5; simp [h1, h2, h3, h4]
  by_cases h6 : op = opMul
  · subst h6; simp [h1, h2, h3, h4, h5]
  simp [h1, h2, h3, h4, h5, h6]

/-- A window decodes to an instruction with that opcode byte and the operand bytes it uses, or is rejected by name. -/
theorem decode_cases (w : Window) :
    (∃ i, decode w = .instr i ∧ w.op = opcodeOf i ∧ operandBytes i = [w.a, w.b].take (operandBytes i).length) ∨
      (decode w = .illegal w.op ∧ select w.op = .illegal) := by
  rcases select_cases w.op with ⟨h, e⟩ | ⟨h, e⟩ | ⟨h, e⟩ | ⟨h, e⟩ | ⟨h, e⟩ | ⟨h, e⟩ | ⟨h, e⟩
  · exact .inl ⟨.hlt, by simp [decode, e], h, rfl⟩
  · exact .inl ⟨.ldi w.a w.b, by simp [decode, e], h, rfl⟩
  · exact .inl ⟨.prn w.a, by simp [decode, e], h, rfl⟩
  · exact .inl ⟨.pop w.a, by simp [decode, e], h, rfl⟩
  · exact .inl ⟨.push w.a, by simp [decode, e], h, rfl⟩
  · exact .inl ⟨.mul w.a w.b, by simp [decode, e], h, rfl⟩
  · exact .inr ⟨by simp [decode, e], e⟩

@[simp] theorem operandCount_opHlt : operandCount opHlt = 0 := by decide
@[simp] theorem operandCount_opLdi : operandCount opLdi = 2 := by decide
@[simp] theorem operandCount_opPrn : operandCount opPrn = 1 := by decide
@[simp] theorem operandCount_opPop : operandCount opPop = 1 := by decide
@[simp] theorem operandCount_opPush : operandCount opPush = 1 := by decide
@[simp] theorem operandCount_opMul : operandCount opMul = 2 := by decide

/-- The operand count of each opcode (R77). -/
theorem operandCount_opcodeOf (i : Instr) : operandCount (opcodeOf i) = (operandBytes i).length := by
  cases i <;> simp [opcodeOf, operandBytes]

/-- An instruction other than HLT has at least one operand byte (R110). -/
theorem operandCount_pos {i : Instr} (h : i ≠ .hlt) : 1 ≤ operandCount (opcodeOf i) := by
  cases i <;> simp_all [opcodeOf]

/-- No instruction has more than two operand bytes (R70). -/
theorem operandCount_le (i : Instr) : operandCount (opcodeOf i) ≤ 2 := by
  cases i <;> simp [opcodeOf]

end Sys2Proof
end

