-- ==== Sys2Proof/Laws/Memory.lean ====
section
/-! SUPPORT. The laws of the memory array: a read after a write, and that every operation keeps the canonical form. -/

namespace Sys2Proof.Machine

/-- The canonical form of a list with a first cell, read once. -/
theorem cellsWfFrom_cons {lo k : Nat} {w : Byte} {m : Memory} :
    cellsWfFrom lo ((k, w) :: m) = true ↔
      lo ≤ k ∧ k < 256 ∧ w ≠ unlistedByte ∧ cellsWfFrom (k + 1) m = true := by
  simp [cellsWfFrom, and_assoc]

theorem cellsWfFrom_mono {lo lo' : Nat} {m : Memory} (h : lo' ≤ lo) (hm : cellsWfFrom lo m = true) :
    cellsWfFrom lo' m = true := by
  cases m with
  | nil => rfl
  | cons c m =>
    obtain ⟨h1, h2⟩ := cellsWfFrom_cons.1 hm
    exact cellsWfFrom_cons.2 ⟨h.trans h1, h2⟩

/-- Nothing is listed below the first address. -/
theorem byteAt_below {lo a : Nat} {m : Memory} (hm : cellsWfFrom lo m = true) (h : a < lo) :
    byteAt m a = unlistedByte := by
  induction m generalizing lo with
  | nil => rfl
  | cons c m ih =>
    obtain ⟨h1, -, -, h4⟩ := cellsWfFrom_cons.1 hm
    have hne : c.1 ≠ a := by omega
    simp [byteAt, hne, ih h4 (by omega)]

theorem byteAt_listCell {lo addr a : Nat} {v : Byte} {m : Memory}
    (hm : cellsWfFrom lo m = true) (h : addr < lo) :
    byteAt (listCell addr v m) a = if a = addr then v else byteAt m a := by
  unfold listCell
  by_cases ha : a = addr
  · subst ha
    split
    · simp [*, byteAt_below hm h]
    · simp [byteAt]
  · rw [if_neg ha]
    split
    · rfl
    · simp [byteAt, Ne.symm ha]

theorem cellsWfFrom_listCell {lo addr : Nat} {v : Byte} {m : Memory}
    (hm : cellsWfFrom (addr + 1) m = true) (h : lo ≤ addr) (hb : addr < 256) :
    cellsWfFrom lo (listCell addr v m) = true := by
  unfold listCell
  split
  · exact cellsWfFrom_mono (by omega) hm
  · exact cellsWfFrom_cons.2 ⟨h, hb, by assumption, hm⟩

theorem byteAt_setByte_from {lo addr a : Nat} {v : Byte} {m : Memory} (hm : cellsWfFrom lo m = true) :
    byteAt (setByte m addr v) a = if a = addr then v else byteAt m a := by
  induction m generalizing lo with
  | nil => exact byteAt_listCell (lo := addr + 1) rfl (Nat.lt_succ_self _)
  | cons c m ih =>
    obtain ⟨k, w⟩ := c
    obtain ⟨-, -, -, h4⟩ := cellsWfFrom_cons.1 hm
    simp only [setByte]
    split
    · exact byteAt_listCell (lo := k) (cellsWfFrom_cons.2 ⟨le_rfl, (cellsWfFrom_cons.1 hm).2⟩) (by omega)
    · split
      · rename_i _ he
        subst he
        rw [byteAt_listCell h4 (Nat.lt_succ_self _)]
        by_cases ha : a = addr
        · simp [ha]
        · simp [ha, byteAt, Ne.symm ha]
      · simp only [byteAt, ih h4]
        by_cases hk : k = a
        · simp [hk.symm]; omega
        · simp [hk]

theorem cellsWfFrom_setByte {lo addr : Nat} {v : Byte} {m : Memory}
    (hm : cellsWfFrom lo m = true) (h : lo ≤ addr) (hb : addr < 256) :
    cellsWfFrom lo (setByte m addr v) = true := by
  induction m generalizing lo with
  | nil => exact cellsWfFrom_listCell rfl h hb
  | cons c m ih =>
    obtain ⟨k, w⟩ := c
    obtain ⟨h1, h2, h3, h4⟩ := cellsWfFrom_cons.1 hm
    simp only [setByte]
    split
    · exact cellsWfFrom_listCell (cellsWfFrom_cons.2 ⟨by omega, h2, h3, h4⟩) h hb
    · split
      · rename_i _ he; subst he; exact cellsWfFrom_listCell h4 h hb
      · exact cellsWfFrom_cons.2 ⟨h1, h2, h3, ih h4 (by omega)⟩

/-- A read after a write: the written cell holds the byte, every other cell is as before (R52). -/
theorem byteAt_setByte {addr a : Nat} {v : Byte} {m : Memory} (hm : Memory.wf m = true) :
    byteAt (setByte m addr v) a = if a = addr then v else byteAt m a :=
  byteAt_setByte_from hm

/-- A write inside the array keeps the canonical form. -/
theorem wf_setByte {addr : Nat} {v : Byte} {m : Memory} (hm : Memory.wf m = true) (hb : addr < 256) :
    Memory.wf (setByte m addr v) = true :=
  cellsWfFrom_setByte hm (Nat.zero_le _) hb

/-- Nothing is listed outside the array. -/
theorem byteAt_outside {lo a : Nat} {m : Memory} (hm : cellsWfFrom lo m = true) (ha : 256 ≤ a) :
    byteAt m a = unlistedByte := by
  induction m generalizing lo with
  | nil => rfl
  | cons c m ih =>
    obtain ⟨-, h2, -, h4⟩ := cellsWfFrom_cons.1 hm
    have hne : c.1 ≠ a := by omega
    simp [byteAt, hne, ih h4]

/-- Canonical memories that read alike are equal: the form is canonical. -/
theorem cells_ext {lo : Nat} {m m' : Memory} (hm : cellsWfFrom lo m = true) (hm' : cellsWfFrom lo m' = true)
    (h : ∀ a, byteAt m a = byteAt m' a) : m = m' := by
  induction m generalizing lo m' with
  | nil =>
    cases m' with
    | nil => rfl
    | cons c m' =>
      have := h c.1
      simp only [byteAt, if_true] at this
      exact absurd this.symm (cellsWfFrom_cons.1 hm').2.2.1
  | cons c m ih =>
    obtain ⟨k, w⟩ := c
    obtain ⟨h1, h2, h3, h4⟩ := cellsWfFrom_cons.1 hm
    cases m' with
    | nil =>
      have := h k
      simp only [byteAt, if_true] at this
      exact absurd this h3
    | cons c' m' =>
      obtain ⟨k', w'⟩ := c'
      obtain ⟨h1', h2', h3', h4'⟩ := cellsWfFrom_cons.1 hm'
      have hk : k = k' := by
        rcases lt_trichotomy k k' with hlt | he | hgt
        · have := h k
          rw [byteAt_below (lo := k') (cellsWfFrom_cons.2 ⟨le_rfl, h2', h3', h4'⟩) hlt] at this
          simp only [byteAt, if_true] at this
          exact absurd this h3
        · exact he
        · have := h k'
          rw [byteAt_below (lo := k) (cellsWfFrom_cons.2 ⟨le_rfl, h2, h3, h4⟩) hgt] at this
          simp only [byteAt, if_true] at this
          exact absurd this.symm h3'
      subst hk
      have hw : w = w' := by simpa [byteAt] using h k
      subst hw
      have : m = m' := ih h4 h4' fun a => by
        by_cases ha : k = a
        · subst ha
          rw [byteAt_below h4 (Nat.lt_succ_self _), byteAt_below h4' (Nat.lt_succ_self _)]
        · simpa [byteAt, ha] using h a
      rw [this]

/-- What a bounded read answers (R51). -/
theorem memRead_cases (m : Memory) (addr : Nat) :
    (addr < 256 ∧ memRead m addr = .ok (byteAt m addr)) ∨
      (256 ≤ addr ∧ memRead m addr = .error (.addressOutOfRange .mem addr)) := by
  by_cases h : addr < 256
  · exact .inl ⟨h, if_pos h⟩
  · exact .inr ⟨by omega, if_neg h⟩

/-- What a bounded write answers (R52). -/
theorem memWrite_cases (m : Memory) (addr : Nat) (v : Byte) :
    (addr < 256 ∧ memWrite m addr v = .ok (setByte m addr v)) ∨
      (256 ≤ addr ∧ memWrite m addr v = .error (.addressOutOfRange .mem addr)) := by
  by_cases h : addr < 256
  · exact .inl ⟨h, if_pos h⟩
  · exact .inr ⟨by omega, if_neg h⟩

/-- Storing bytes keeps the canonical form. -/
theorem wf_storeBytes {addr : Nat} {vs : List Byte} {m : Memory} (hm : Memory.wf m = true) :
    Memory.wf (storeBytes m addr vs) = true := by
  induction vs generalizing m addr with
  | nil => exact hm
  | cons v vs ih =>
    simp only [storeBytes]
    split
    · exact ih (wf_setByte hm (by assumption))
    · exact ih hm

/-- Storing bytes changes no cell below the first. -/
theorem byteAt_storeBytes_below {addr a : Nat} {vs : List Byte} {m : Memory} (hm : Memory.wf m = true)
    (h : a < addr) : byteAt (storeBytes m addr vs) a = byteAt m a := by
  induction vs generalizing m addr with
  | nil => rfl
  | cons v vs ih =>
    simp only [storeBytes]
    split
    · rw [ih (wf_setByte hm (by assumption)) (by omega), byteAt_setByte hm, if_neg (by omega)]
    · exact ih hm (by omega)

/-- Every cell after storing bytes that fit in the array. -/
theorem byteAt_storeBytes {addr a : Nat} {vs : List Byte} {m : Memory} (hm : Memory.wf m = true)
    (hfit : addr + vs.length ≤ 256) :
    byteAt (storeBytes m addr vs) a =
      if addr ≤ a ∧ a < addr + vs.length then vs.getD (a - addr) 0 else byteAt m a := by
  induction vs generalizing m addr with
  | nil => rw [if_neg (by simp)]; rfl
  | cons v vs ih =>
    simp only [List.length_cons] at hfit
    have hlt : addr < 256 := by omega
    simp only [storeBytes, hlt, if_true]
    rw [ih (wf_setByte hm hlt) (by omega), byteAt_setByte hm]
    by_cases ha : a = addr
    · subst ha; simp
    · by_cases h2 : addr + 1 ≤ a ∧ a < addr + 1 + vs.length
      · have h3 : addr ≤ a ∧ a < addr + (vs.length + 1) := by omega
        have h4 : a - addr = (a - (addr + 1)) + 1 := by omega
        simp [h2, h3, h4]
      · have h3 : ¬ (addr ≤ a ∧ a < addr + (vs.length + 1)) := by omega
        rw [if_neg h2, if_neg ha]
        exact (if_neg h3).symm

end Sys2Proof.Machine
end

