-- ==== Sys2Proof/Laws/State.lean ====
section
/-! SUPPORT. The fields of a state after each named update, so that no proof unfolds a record update. -/

namespace Sys2Proof.Machine

section
variable (s : State) (r q : RegIdx) (v op : Byte) (opcode : Option Byte) (c : Cause)

@[simp] theorem writeReg_mem : (writeReg s r v).mem = s.mem := rfl
@[simp] theorem writeReg_x : (writeReg s r v).x = s.x.set r v := rfl
@[simp] theorem writeReg_pc : (writeReg s r v).pc = s.pc := rfl
@[simp] theorem writeReg_sp : (writeReg s r v).sp = s.sp := rfl
@[simp] theorem writeReg_fl : (writeReg s r v).fl = s.fl := rfl
@[simp] theorem writeReg_status : (writeReg s r v).status = s.status := rfl
@[simp] theorem writeReg_out : (writeReg s r v).out = s.out := rfl

@[simp] theorem emit_mem : (emit s v).mem = s.mem := rfl
@[simp] theorem emit_x : (emit s v).x = s.x := rfl
@[simp] theorem emit_pc : (emit s v).pc = s.pc := rfl
@[simp] theorem emit_sp : (emit s v).sp = s.sp := rfl
@[simp] theorem emit_fl : (emit s v).fl = s.fl := rfl
@[simp] theorem emit_status : (emit s v).status = s.status := rfl
@[simp] theorem emit_out : (emit s v).out = s.out ++ [v] := rfl

@[simp] theorem halt_mem : (halt s).mem = s.mem := rfl
@[simp] theorem halt_x : (halt s).x = s.x := rfl
@[simp] theorem halt_pc : (halt s).pc = s.pc := rfl
@[simp] theorem halt_sp : (halt s).sp = s.sp := rfl
@[simp] theorem halt_fl : (halt s).fl = s.fl := rfl
@[simp] theorem halt_status : (halt s).status = .halted := rfl
@[simp] theorem halt_out : (halt s).out = s.out := rfl

@[simp] theorem advancePc_mem : (advancePc op s).mem = s.mem := rfl
@[simp] theorem advancePc_x : (advancePc op s).x = s.x := rfl
@[simp] theorem advancePc_pc : (advancePc op s).pc = s.pc + operandCount op + 1 := rfl
@[simp] theorem advancePc_sp : (advancePc op s).sp = s.sp := rfl
@[simp] theorem advancePc_fl : (advancePc op s).fl = s.fl := rfl
@[simp] theorem advancePc_status : (advancePc op s).status = s.status := rfl
@[simp] theorem advancePc_out : (advancePc op s).out = s.out := rfl

@[simp] theorem takeFault_mem : (takeFault s opcode c).mem = s.mem := rfl
@[simp] theorem takeFault_x : (takeFault s opcode c).x = s.x := rfl
@[simp] theorem takeFault_pc : (takeFault s opcode c).pc = s.pc := rfl
@[simp] theorem takeFault_sp : (takeFault s opcode c).sp = s.sp := rfl
@[simp] theorem takeFault_fl : (takeFault s opcode c).fl = s.fl := rfl
@[simp] theorem takeFault_status :
    (takeFault s opcode c).status = .faulted (faultRecord s.pc opcode c) := rfl
@[simp] theorem takeFault_out : (takeFault s opcode c).out = s.out := rfl

/-- A register read after a register write. -/
theorem readReg_writeReg : readReg (writeReg s r v) q = if q = r then v else readReg s q := by
  by_cases h : q = r
  · subst h; simp [readReg]
  · have : (r : Nat) ≠ q := fun e => h (Fin.ext e.symm)
    simp [readReg, h, Vector.getElem_set_ne, this]

end

/-- `commit` always answers a next state: a handler that raises takes its fault (R186). -/
theorem commit_next (s : State) (op : Byte) (r : Except Cause State) :
    ∃ t, commit s op r = .next t ∧ (r = .ok t ∨ ∃ c, r = .error c ∧ t = takeFault s (some op) c) := by
  cases r with
  | ok t => exact ⟨t, rfl, .inl rfl⟩
  | error c => exact ⟨_, rfl, .inr ⟨c, rfl, rfl⟩⟩

end Sys2Proof.Machine
end

