-- ==== Sys2Proof/Laws/Exec.lean ====
section
/-! SUPPORT. What each operand form and each meaning can answer, said once. -/

namespace Sys2Proof.Machine

/-! ### Operand forms -/

theorem checkReg_ok {i : Byte} (h : i.toNat < 8) : checkReg i = .ok ⟨i.toNat, h⟩ := dif_pos h

theorem checkReg_error {i : Byte} (h : 8 ≤ i.toNat) :
    checkReg i = .error (.addressOutOfRange .reg i.toNat) := dif_neg (Nat.not_lt.2 h)

theorem stackPush_ok {sp : Nat} (h : sp ≠ 0) : stackPush sp = .ok { addr := sp - 1, spNext := sp - 1 } := if_neg h

theorem stackPush_error : stackPush 0 = .error (.stackOverflow 0) := rfl

theorem stackPop_ok {sp : Nat} (h : sp < 0xF4) : stackPop sp = .ok { addr := sp, spNext := sp + 1 } :=
  if_neg (Nat.not_le.2 h)

theorem stackPop_error {sp : Nat} (h : 0xF4 ≤ sp) : stackPop sp = .error (.stackUnderflow sp) := if_pos h

theorem memRead_ok {m : Memory} {addr : Nat} (h : addr < 256) : memRead m addr = .ok (byteAt m addr) := if_pos h

theorem memRead_error {m : Memory} {addr : Nat} (h : 256 ≤ addr) :
    memRead m addr = .error (.addressOutOfRange .mem addr) := if_neg (Nat.not_lt.2 h)

theorem memWrite_ok {m : Memory} {addr : Nat} {v : Byte} (h : addr < 256) :
    memWrite m addr v = .ok (setByte m addr v) := if_pos h

theorem memWrite_error {m : Memory} {addr : Nat} {v : Byte} (h : 256 ≤ addr) :
    memWrite m addr v = .error (.addressOutOfRange .mem addr) := if_neg (Nat.not_lt.2 h)

/-! ### The meanings, case by case -/

section
variable {s : State} {ra rb imm8 : Byte}

theorem execHlt_eq : execHlt s = .next (halt s) := rfl

theorem execLdi_eq (h : ra.toNat < 8) :
    execLdi ra imm8 s = .next (advancePc opLdi (writeReg s ⟨ra.toNat, h⟩ imm8)) := by
  simp only [execLdi, checkReg_ok h]; rfl

theorem execLdi_badReg (h : 8 ≤ ra.toNat) :
    execLdi ra imm8 s = .next (takeFault s (some opLdi) (.addressOutOfRange .reg ra.toNat)) := by
  simp only [execLdi, checkReg_error h]; rfl

theorem execPrn_eq (h : ra.toNat < 8) :
    execPrn ra s = .next (advancePc opPrn (emit s (readReg s ⟨ra.toNat, h⟩))) := by
  simp only [execPrn, checkReg_ok h]; rfl

theorem execPrn_badReg (h : 8 ≤ ra.toNat) :
    execPrn ra s = .next (takeFault s (some opPrn) (.addressOutOfRange .reg ra.toNat)) := by
  simp only [execPrn, checkReg_error h]; rfl

theorem execPop_eq (h : ra.toNat < 8) (hsp : s.sp < 0xF4) :
    execPop ra s =
      .next (advancePc opPop { writeReg s ⟨ra.toNat, h⟩ (byteAt s.mem s.sp) with sp := s.sp + 1 }) := by
  have hm : memRead s.mem s.sp = .ok (byteAt s.mem s.sp) := memRead_ok (by omega)
  simp only [execPop, checkReg_ok h, stackPop_ok hsp, bind, Except.bind, hm]; rfl

theorem execPop_empty (h : ra.toNat < 8) (hsp : 0xF4 ≤ s.sp) :
    execPop ra s = .next (takeFault s (some opPop) (.stackUnderflow s.sp)) := by
  simp only [execPop, checkReg_ok h, stackPop_error hsp]; rfl

theorem execPop_badReg (h : 8 ≤ ra.toNat) :
    execPop ra s = .next (takeFault s (some opPop) (.addressOutOfRange .reg ra.toNat)) := by
  simp only [execPop, checkReg_error h]; rfl

theorem execPush_eq (h : ra.toNat < 8) (hsp : s.sp ≠ 0) (hb : s.sp ≤ 256) :
    execPush ra s =
      .next (advancePc opPush
        { s with sp := s.sp - 1, mem := setByte s.mem (s.sp - 1) (readReg s ⟨ra.toNat, h⟩) }) := by
  have hm : ∀ v, memWrite s.mem (s.sp - 1) v = .ok (setByte s.mem (s.sp - 1) v) :=
    fun v => memWrite_ok (by omega)
  simp only [execPush, checkReg_ok h, stackPush_ok hsp, bind, Except.bind, hm]; rfl

/-- No state of the invariant reaches this case: SP never exceeds 0xF4. -/
theorem execPush_outside (h : ra.toNat < 8) (hb : 256 < s.sp) :
    execPush ra s = .next (takeFault s (some opPush) (.addressOutOfRange .mem (s.sp - 1))) := by
  have hm : ∀ v, memWrite s.mem (s.sp - 1) v = .error (.addressOutOfRange .mem (s.sp - 1)) :=
    fun v => memWrite_error (by omega)
  simp only [execPush, checkReg_ok h, stackPush_ok (sp := s.sp) (by omega), bind, Except.bind, hm]; rfl

theorem execPush_full (h : ra.toNat < 8) (hsp : s.sp = 0) :
    execPush ra s = .next (takeFault s (some opPush) (.stackOverflow 0)) := by
  simp only [execPush, checkReg_ok h, hsp, stackPush_error]; rfl

theorem execPush_badReg (h : 8 ≤ ra.toNat) :
    execPush ra s = .next (takeFault s (some opPush) (.addressOutOfRange .reg ra.toNat)) := by
  simp only [execPush, checkReg_error h]; rfl

theorem execMul_eq (ha : ra.toNat < 8) (hb : rb.toNat < 8) :
    execMul ra rb s = .next (advancePc opMul
      (writeReg s ⟨ra.toNat, ha⟩ (mulByte (readReg s ⟨ra.toNat, ha⟩) (readReg s ⟨rb.toNat, hb⟩)))) := by
  simp only [execMul, aluDispatch, aluTable, if_true, checkReg_ok ha, checkReg_ok hb]; rfl

theorem execMul_badFirst (ha : 8 ≤ ra.toNat) :
    execMul ra rb s = .next (takeFault s (some opMul) (.addressOutOfRange .reg ra.toNat)) := by
  simp only [execMul, aluDispatch, aluTable, if_true, checkReg_error ha]; rfl

theorem execMul_badSecond (ha : ra.toNat < 8) (hb : 8 ≤ rb.toNat) :
    execMul ra rb s = .next (takeFault s (some opMul) (.addressOutOfRange .reg rb.toNat)) := by
  simp only [execMul, aluDispatch, aluTable, if_true, checkReg_ok ha, checkReg_error hb]; rfl

end

/-! ### All meanings at once -/

/-- A fault an instruction can raise (R189): a register index of 8 or more, its own stack check, or, from no state of the
invariant, a write beyond the array. -/
inductive RaisedBy (s : State) : Instr → Cause → Prop where
  | badReg {i r} (hr : r ∈ i.regOperands) (h : 8 ≤ r.toNat) : RaisedBy s i (.addressOutOfRange .reg r.toNat)
  | full {ra} (h : s.sp = 0) : RaisedBy s (.push ra) (.stackOverflow 0)
  | empty {ra} (h : 0xF4 ≤ s.sp) : RaisedBy s (.pop ra) (.stackUnderflow s.sp)
  | outside {ra} (h : 256 < s.sp) : RaisedBy s (.push ra) (.addressOutOfRange .mem (s.sp - 1))

/-- What an instruction does when it completes (R130 to R134, R161). -/
inductive Completes (s : State) : Instr → State → Prop where
  | hlt : Completes s .hlt (halt s)
  | ldi {ra imm8} (h : ra.toNat < 8) :
      Completes s (.ldi ra imm8) (advancePc opLdi (writeReg s ⟨ra.toNat, h⟩ imm8))
  | prn {ra} (h : ra.toNat < 8) :
      Completes s (.prn ra) (advancePc opPrn (emit s (readReg s ⟨ra.toNat, h⟩)))
  | pop {ra} (h : ra.toNat < 8) (hsp : s.sp < 0xF4) :
      Completes s (.pop ra)
        (advancePc opPop { writeReg s ⟨ra.toNat, h⟩ (byteAt s.mem s.sp) with sp := s.sp + 1 })
  | push {ra} (h : ra.toNat < 8) (hsp : s.sp ≠ 0) (hb : s.sp ≤ 256) :
      Completes s (.push ra)
        (advancePc opPush { s with sp := s.sp - 1, mem := setByte s.mem (s.sp - 1) (readReg s ⟨ra.toNat, h⟩) })
  | mul {ra rb} (ha : ra.toNat < 8) (hb : rb.toNat < 8) :
      Completes s (.mul ra rb) (advancePc opMul
        (writeReg s ⟨ra.toNat, ha⟩ (mulByte (readReg s ⟨ra.toNat, ha⟩) (readReg s ⟨rb.toNat, hb⟩))))

/-- A completed instruction other than HLT is still running and has advanced PC by its length (R106); HLT is halted. -/
theorem Completes.status_pc {s t : State} {i : Instr} (h : Completes s i t) :
    (i = .hlt ∧ t = halt s) ∨
      (i ≠ .hlt ∧ t.status = s.status ∧ t.pc = s.pc + operandCount (opcodeOf i) + 1) := by
  cases h <;> simp [opcodeOf]

/-- The product's low 8 bits (R161). -/
theorem mulByte_toNat (va vb : Byte) : (mulByte va vb).toNat = va.toNat * vb.toNat % 256 := by
  simp [mulByte]

/-- Every instruction completes or takes a fault it can raise; it never stops without a next state. -/
theorem exec_cases (i : Instr) (s : State) :
    ∃ t, exec i s = .next t ∧
      (Completes s i t ∨ ∃ c, RaisedBy s i c ∧ t = takeFault s (some (opcodeOf i)) c) := by
  cases i with
  | hlt => exact ⟨_, rfl, .inl .hlt⟩
  | ldi ra imm8 =>
    by_cases h : ra.toNat < 8
    · exact ⟨_, execLdi_eq h, .inl (.ldi h)⟩
    · exact ⟨_, execLdi_badReg (by omega), .inr ⟨_, .badReg (by simp [Instr.regOperands]) (by omega), rfl⟩⟩
  | prn ra =>
    by_cases h : ra.toNat < 8
    · exact ⟨_, execPrn_eq h, .inl (.prn h)⟩
    · exact ⟨_, execPrn_badReg (by omega), .inr ⟨_, .badReg (by simp [Instr.regOperands]) (by omega), rfl⟩⟩
  | pop ra =>
    by_cases h : ra.toNat < 8
    · by_cases hs : s.sp < 0xF4
      · exact ⟨_, execPop_eq h hs, .inl (.pop h hs)⟩
      · exact ⟨_, execPop_empty h (by omega), .inr ⟨_, .empty (by omega), rfl⟩⟩
    · exact ⟨_, execPop_badReg (by omega), .inr ⟨_, .badReg (by simp [Instr.regOperands]) (by omega), rfl⟩⟩
  | push ra =>
    by_cases h : ra.toNat < 8
    · by_cases hs : s.sp = 0
      · exact ⟨_, execPush_full h hs, .inr ⟨_, .full hs, rfl⟩⟩
      · by_cases hb : s.sp ≤ 256
        · exact ⟨_, execPush_eq h hs hb, .inl (.push h hs hb)⟩
        · exact ⟨_, execPush_outside h (by omega), .inr ⟨_, .outside (by omega), rfl⟩⟩
    · exact ⟨_, execPush_badReg (by omega), .inr ⟨_, .badReg (by simp [Instr.regOperands]) (by omega), rfl⟩⟩
  | mul ra rb =>
    by_cases ha : ra.toNat < 8
    · by_cases hb : rb.toNat < 8
      · exact ⟨_, execMul_eq ha hb, .inl (.mul ha hb)⟩
      · exact ⟨_, execMul_badSecond ha (by omega), .inr ⟨_, .badReg (by simp [Instr.regOperands]) (by omega), rfl⟩⟩
    · exact ⟨_, execMul_badFirst (by omega), .inr ⟨_, .badReg (by simp [Instr.regOperands]) (by omega), rfl⟩⟩

end Sys2Proof.Machine
end

