-- ==== Sys2Proof/Laws/PerInstr.lean ====
section
/-! SUPPORT. Facts about every instruction as data, one lemma per constructor. -/

namespace Sys2Proof.Laws

/-- An instruction's bytes are its opcode and as many operand bytes as the opcode's top two bits say (R70). -/
def EncodeLength.Statement (i : Instr) : Prop :=
  (encode i).length = operandCount (opcodeOf i) + 1

theorem EncodeLength.hlt : EncodeLength.Statement .hlt :=
  congrArg (· + 1) (operandCount_opcodeOf _).symm
theorem EncodeLength.ldi (ra imm8 : Byte) : EncodeLength.Statement (.ldi ra imm8) :=
  congrArg (· + 1) (operandCount_opcodeOf _).symm
theorem EncodeLength.prn (ra : Byte) : EncodeLength.Statement (.prn ra) :=
  congrArg (· + 1) (operandCount_opcodeOf _).symm
theorem EncodeLength.pop (ra : Byte) : EncodeLength.Statement (.pop ra) :=
  congrArg (· + 1) (operandCount_opcodeOf _).symm
theorem EncodeLength.push (ra : Byte) : EncodeLength.Statement (.push ra) :=
  congrArg (· + 1) (operandCount_opcodeOf _).symm
theorem EncodeLength.mul (ra rb : Byte) : EncodeLength.Statement (.mul ra rb) :=
  congrArg (· + 1) (operandCount_opcodeOf _).symm

end Sys2Proof.Laws
end

