-- ==== Sys2Proof/Laws/Step.lean ====
section
/-! SUPPORT. What the fetch and a step can answer, said once. -/

namespace Sys2Proof.Machine

/-- The bytes at pc, pc+1 and pc+2. -/
def windowAt (s : State) : Window :=
  { op := byteAt s.mem s.pc, a := byteAt s.mem (s.pc + 1), b := byteAt s.mem (s.pc + 2) }

/-- The fetch reads three bytes when all three are inside the array (R102). -/
theorem fetch_ok {s : State} (h : s.pc ≤ 253) : fetch s = .ok (windowAt s) := by
  have h0 : s.pc < 256 := by omega
  have h1 : s.pc + 1 < 256 := by omega
  have h2 : s.pc + 2 < 256 := by omega
  simp only [fetch, fetchRead, memRead_ok h0, memRead_ok h1, memRead_ok h2]; rfl

/-- At 254 and 255 the read at 256 is the first that fails, after the opcode byte (R103, R215). -/
theorem fetch_top {s : State} (h : s.pc = 254 ∨ s.pc = 255) :
    fetch s = .error { opcode := some (byteAt s.mem s.pc), cause := .addressOutOfRange .mem 256 } := by
  have h0 : s.pc < 256 := by omega
  rcases h with h | h
  · have h1 : s.pc + 1 < 256 := by omega
    have h2 : 256 ≤ s.pc + 2 := by omega
    simp only [fetch, fetchRead, memRead_ok h0, memRead_ok h1, memRead_error h2]
    simp [h, bind, Except.bind]
  · have h1 : 256 ≤ s.pc + 1 := by omega
    simp only [fetch, fetchRead, memRead_ok h0, memRead_error h1]
    simp [h, bind, Except.bind]

/-- At 256 and above the opcode read itself fails (R103). -/
theorem fetch_beyond {s : State} (h : 256 ≤ s.pc) :
    fetch s = .error { opcode := none, cause := .addressOutOfRange .mem s.pc } := by
  simp only [fetch, fetchRead, memRead_error h]; rfl

/-- A step exists only from Running (R101). -/
theorem step_next_running {s t : State} (h : step s = .next t) : s.status = .running := by
  unfold step at h
  split at h
  · assumption
  · cases h
  · cases h

theorem step_of_running {s : State} (h : s.status = .running) : step s = runningStep s := by
  simp [step, h]

/-- A running step whose fetch succeeds: the decoded instruction runs, or the illegal byte is reported. -/
theorem step_of_fetch {s : State} (h : s.status = .running) (hpc : s.pc ≤ 253) :
    step s = match decode (windowAt s) with
      | .instr i => exec i s
      | .illegal op => .next (takeFault s (some op) (.unknownOpcode op)) := by
  rw [step_of_running h]
  unfold runningStep
  cases hf : fetch s with
  | error f => rw [fetch_ok hpc] at hf; cases hf
  | ok w =>
    rw [fetch_ok hpc] at hf
    cases hf
    rfl

/-- A running step whose fetch leaves memory. -/
theorem step_of_fetchFault {s : State} {f : FetchFault} (h : s.status = .running) (hf : fetch s = .error f) :
    step s = .next (takeFault s f.opcode f.cause) := by
  rw [step_of_running h, runningStep, hf]

/-- A running state always has a next state, and one of these is how it comes about (R109): the fetch left memory, the
byte at pc is illegal, an instruction raised, or an instruction completed. -/
theorem step_cases {s : State} (h : s.status = .running) :
    ∃ t, step s = .next t ∧
      ((∃ f, fetch s = .error f ∧ 254 ≤ s.pc ∧ t = takeFault s f.opcode f.cause) ∨
        (s.pc ≤ 253 ∧ select (byteAt s.mem s.pc) = .illegal ∧
          t = takeFault s (some (byteAt s.mem s.pc)) (.unknownOpcode (byteAt s.mem s.pc))) ∨
        (s.pc ≤ 253 ∧ ∃ i, decode (windowAt s) = .instr i ∧
          byteAt s.mem s.pc = opcodeOf i ∧
          operandBytes i = [byteAt s.mem (s.pc + 1), byteAt s.mem (s.pc + 2)].take (operandBytes i).length ∧
          exec i s = .next t ∧
          (Completes s i t ∨ ∃ c, RaisedBy s i c ∧ t = takeFault s (some (opcodeOf i)) c))) := by
  by_cases hpc : s.pc ≤ 253
  · rw [step_of_fetch h hpc]
    rcases decode_cases (windowAt s) with ⟨i, hd, hop, hb⟩ | ⟨hd, hill⟩
    · obtain ⟨t, ht, hc⟩ := exec_cases i s
      exact ⟨t, by rw [hd]; exact ht, .inr (.inr ⟨hpc, i, hd, hop, hb, ht, hc⟩)⟩
    · rw [hd]
      exact ⟨_, rfl, .inr (.inl ⟨hpc, hill, rfl⟩)⟩
  · obtain ⟨f, hf⟩ : ∃ f, fetch s = .error f := by
      by_cases h2 : 256 ≤ s.pc
      · exact ⟨_, fetch_beyond h2⟩
      · exact ⟨_, fetch_top (by omega)⟩
    exact ⟨_, step_of_fetchFault h hf, .inl ⟨f, hf, by omega, rfl⟩⟩

end Sys2Proof.Machine
end

