-- ==== Sys2Proof/Laws/Safety.lean ====
section
/-! SUPPORT. The invariant of a Running state, and runs step by step. -/

namespace Sys2Proof

open Sys2Proof.Machine

/-- A Running state meets the invariant when memory, PC and SP do: it has no record. -/
theorem StateInv.of_running {s : State} (hm : Memory.wf s.mem = true) (hpc : s.pc ≤ 256) (hsp : s.sp ≤ 0xF4)
    (hr : s.status = .running) : StateInv s :=
  ⟨hm, hpc, hsp, fun r h => by rw [hr] at h; cases h⟩

/-- A step that fetches and completes from a Running state moves PC forward by at least 2 or stops the machine. -/
theorem running_step_progress {s t : State} (h : step s = .next t) (hr : t.status = .running) :
    s.pc ≤ 253 ∧ s.pc + 2 ≤ t.pc := by
  have hs := step_next_running h
  obtain ⟨t', ht, hc⟩ := step_cases hs
  rw [h] at ht
  cases ht
  rcases hc with ⟨f, -, -, rfl⟩ | ⟨-, -, rfl⟩ | ⟨hpc, i, -, -, -, -, hc | ⟨c, -, rfl⟩⟩
  · simp at hr
  · simp at hr
  · rcases hc.status_pc with ⟨-, rfl⟩ | ⟨hi, -, hp⟩
    · simp at hr
    · have := operandCount_pos hi
      exact ⟨hpc, by omega⟩
  · simp at hr

/-- A run goes on from a step's next state. -/
theorem stateAfter_succ {s t : State} (h : step s = .next t) (k : Nat) :
    stateAfter (k + 1) s = stateAfter k t := by
  simp only [stateAfter, h]

end Sys2Proof
end

