-- ==== Sys2Proof/Tests/Slice0.lean ====
section
/-! SUPPORT. Tests whose expected results are the spec's own (spec/95_test_vectors.md and the examples of the rules), and
a witness for the hypotheses of each statement that has some. -/

namespace Sys2Proof.Tests

open Sys2Proof Sys2Proof.Machine

/-! ### Helpers -/

/-- A Running state with these bytes at pc, R0 to R7 holding 0. -/
def sample (pc sp : Nat) (bytes : List Byte) : State :=
  { State.reset with pc := pc, sp := sp, mem := storeBytes [] pc bytes }

/-- The next state, where there is one. -/
def next? : StepOutcome → Option State
  | .next t => some t
  | _ => none

/-- The fault record, where there is one: kind, code, pc, opcode, space, value. -/
def fault? (s : State) : Option FaultRecord :=
  match s.status with
  | .faulted r => some r
  | _ => none

/-! ### Well-formedness: one ill-formed term for each register operand (R23) -/

theorem test_wf_accepts : (Instr.mul 7 7).wf = true ∧ (Instr.ldi 7 255).wf = true ∧ Instr.hlt.wf = true := by decide
theorem test_wf_refuses_ldi : (Instr.ldi 8 0).wf = false := by decide
theorem test_wf_refuses_prn : (Instr.prn 8).wf = false := by decide
theorem test_wf_refuses_pop : (Instr.pop 255).wf = false := by decide
theorem test_wf_refuses_push : (Instr.push 9).wf = false := by decide
theorem test_wf_refuses_mul_first : (Instr.mul 8 0).wf = false := by decide
theorem test_wf_refuses_mul_second : (Instr.mul 0 8).wf = false := by decide

/-! ### Decoding: words written out from 30_encoding.md sections 4 and 5, first byte lowest -/

theorem test_decode_hlt : decodeTableWord 8 0b00000001 = some .hlt := by decide
theorem test_decode_ldi : decodeTableWord 24 0b00001001_00000001_10000010 = some (.ldi 1 9) := by decide
theorem test_decode_prn : decodeTableWord 16 0b00000110_01000111 = some (.prn 6) := by decide
theorem test_decode_pop : decodeTableWord 16 0b00000011_01000110 = some (.pop 3) := by decide
theorem test_decode_push : decodeTableWord 16 0b00000100_01000101 = some (.push 4) := by decide
theorem test_decode_mul : decodeTableWord 24 0b00000100_00000011_10100010 = some (.mul 3 4) := by decide
/-- A register byte of 8 or more decodes (R79 does not list it): the check is the handler's. -/
theorem test_decode_bad_register : decodeTableWord 24 0b00000001_11111111_10000010 = some (.ldi 255 1) := by decide
/-- A row shorter than its instruction: the operand bytes are zeros. -/
theorem test_decode_short_row : decodeTableWord 8 0xA2 = some (.mul 0 0) := by decide
/-- V-DEC's illegal rows. -/
theorem test_decode_illegal :
    ([0x00, 0x02, 0xA0, 0x22, 0x81, 0xC1, 0xFF] : List Byte).all (fun op => decode ⟨op, 0, 0⟩ = .illegal op) := by
  decide
/-- W8's field split. -/
theorem test_fields : (operandCount 0xA2, aluFlag 0xA2, opId 0xA2) = (2, true, 2) ∧
    (operandCount 0x47, aluFlag 0x47, opId 0x47) = (1, false, 7) := by decide

/-! ### One step each, from V-HLT to V-ILL -/

theorem test_hlt : (next? (step (sample 5 0xF4 [0x01, 0x05, 0x09]))).map (fun t => (t.status, t.pc)) =
    some (.halted, 5) := by decide
theorem test_hlt_at_253 : (next? (step (sample 253 0xF4 [0x01]))).map (fun t => (t.status, t.pc)) =
    some (.halted, 253) := by decide
theorem test_ldi : (next? (step (sample 0 0xF4 [0x82, 0x03, 0xFF]))).map (fun t => (t.x[3], t.pc)) =
    some (255, 3) := by decide
theorem test_ldi_bad_register : (next? (step (sample 0 0xF4 [0x82, 0x08, 0x01]))).bind fault? =
    some ⟨.addressOutOfRange, 0x02, 0, some 0x82, some .reg, 8⟩ := by decide
theorem test_prn : (next? (step { sample 0 0xF4 [0x47, 0x06] with
    x := #v[0, 0, 0, 0, 0, 0, 200, 0], out := [1] })).map (fun t => (t.out, t.pc)) = some ([1, 200], 2) := by decide
theorem test_prn_bad_register : (next? (step (sample 0 0xF4 [0x47, 0x08]))).bind fault? =
    some ⟨.addressOutOfRange, 0x02, 0, some 0x47, some .reg, 8⟩ := by decide
theorem test_push : (next? (step { sample 0 1 [0x45, 0x02] with x := #v[0, 0, 0xAB, 0, 0, 0, 0, 0] })).map
    (fun t => (t.sp, byteAt t.mem 0, t.pc)) = some (0, 0xAB, 2) := by decide
theorem test_push_full : (next? (step (sample 0 0 [0x45, 0x00]))).bind fault? =
    some ⟨.stackOverflow, 0x04, 0, some 0x45, none, 0⟩ := by decide
theorem test_push_register_check_first : (next? (step (sample 0 0 [0x45, 0x09]))).bind fault? =
    some ⟨.addressOutOfRange, 0x02, 0, some 0x45, some .reg, 9⟩ := by decide
theorem test_pop : (next? (step (sample 0 0 [0x46, 0x01]))).map (fun t => (t.x[1], t.sp, byteAt t.mem 0, t.pc)) =
    some (0x46, 1, 0x46, 2) := by decide
theorem test_pop_empty : (next? (step (sample 0 0xF4 [0x46, 0x00]))).bind fault? =
    some ⟨.stackUnderflow, 0x05, 0, some 0x46, none, 0xF4⟩ := by decide
theorem test_pop_register_check_first : (next? (step (sample 0 0xF4 [0x46, 0x08]))).bind fault? =
    some ⟨.addressOutOfRange, 0x02, 0, some 0x46, some .reg, 8⟩ := by decide
theorem test_mul_wraps : (next? (step { sample 0 0xF4 [0xA2, 0x03, 0x04] with
    x := #v[0, 0, 0, 200, 3, 0, 0, 0] })).map (fun t => (t.x[3], t.x[4], t.fl, t.pc)) = some (88, 3, 0, 3) := by decide
theorem test_mul_square : (next? (step { sample 0 0xF4 [0xA2, 0x07, 0x07] with
    x := #v[0, 0, 0, 0, 0, 0, 0, 3] })).map (fun t => t.x[7]) = some 9 := by decide
theorem test_mul_first_register_checked_first : (next? (step (sample 0 0xF4 [0xA2, 0x09, 0x0A]))).bind fault? =
    some ⟨.addressOutOfRange, 0x02, 0, some 0xA2, some .reg, 9⟩ := by decide
theorem test_illegal : (next? (step (sample 3 0xF4 [0xFF]))).bind fault? =
    some ⟨.unknownOpcode, 0x01, 3, some 0xFF, none, 255⟩ := by decide
theorem test_no_add : (next? (step (sample 0 0xF4 [0xA0, 0x00, 0x01]))).bind fault? =
    some ⟨.unknownOpcode, 0x01, 0, some 0xA0, none, 0xA0⟩ := by decide

/-! ### The top of memory (V-FETCH) -/

theorem test_fetch_254 : (next? (step (sample 254 0xF4 [0x01]))).bind fault? =
    some ⟨.addressOutOfRange, 0x02, 254, some 0x01, some .mem, 256⟩ := by decide
theorem test_fetch_255 : (next? (step (sample 255 0xF4 [0xFF]))).bind fault? =
    some ⟨.addressOutOfRange, 0x02, 255, some 0xFF, some .mem, 256⟩ := by decide
theorem test_fetch_256 : (next? (step (sample 256 0xF4 []))).bind fault? =
    some ⟨.addressOutOfRange, 0x02, 256, none, some .mem, 256⟩ := by decide
theorem test_ldi_at_253 : (next? (step (sample 253 0xF4 [0x82, 0x00, 0x07]))).map (fun t => (t.x[0], t.pc)) =
    some (7, 256) := by decide

/-! ### The host -/

theorem test_load_too_long : load (List.replicate 257 0) = .error (.imageTooLong 257) :=
  (if_pos (by rw [List.length_replicate]; decide)).trans (by rw [List.length_replicate])
theorem test_load_value : load [1, 256] = .error (.valueTooLarge 256) := rfl
theorem test_output_text : outputText { State.reset with out := [7, 255] } = "7\n255\n" := by decide
theorem test_fetch_word_runs :
    (next? (step (State.reset.withFetchWord 24 0xFF0382))).map (fun t => (t.x[3], t.pc)) = some (255, 3) := by decide
theorem test_memory_drops_zero : setByte [(5, 1), (9, 2)] 5 0 = [(9, 2)] ∧ setByte [(5, 1)] 3 7 = [(3, 7), (5, 1)] := by
  decide

/-! ### Witnesses: the hypotheses of each statement, met together -/

/-- A state of the invariant: bytes at pc, PC and SP in range. -/
theorem sample_inv {pc sp : Nat} {bytes : List Byte} (hpc : pc ≤ 256) (hsp : sp ≤ 0xF4) :
    StateInv (sample pc sp bytes) :=
  .of_running (wf_storeBytes rfl) hpc hsp rfl

theorem witness_load_fits : (List.replicate 256 255).length ≤ 256 ∧ ∀ v ∈ List.replicate 256 255, v ≤ 255 :=
  ⟨List.length_replicate.le, fun _ h => (List.eq_of_mem_replicate h).le⟩
theorem witness_load_too_long : 256 < (List.replicate 257 0).length := by
  rw [List.length_replicate]; decide
theorem witness_load_value : ∃ v ∈ [0, 256], 255 < v := by decide
theorem witness_invariant_step : ∃ (s : State) (t : State), StateInv s ∧ step s = .next t :=
  ⟨sample 253 1 [0x45, 0x07], _, sample_inv (by decide) (by decide), rfl⟩
theorem witness_memory_bounds : (255 < 256 ∧ 256 ≤ 256) ∧ Memory.wf [(0, 1), (255, 0xFF)] = true := by decide
theorem witness_step_decodes : ∃ (s : State) (i : Instr), s.status = .running ∧ s.pc ≤ 253 ∧
    decode ⟨byteAt s.mem s.pc, byteAt s.mem (s.pc + 1), byteAt s.mem (s.pc + 2)⟩ = .instr i :=
  ⟨sample 253 0xF4 [0x82, 0x07, 0xFF], .ldi 7 0xFF, by decide⟩
theorem witness_fetch_past_end :
    ((sample 254 0xF4 []).status = .running ∧ 254 ≤ (sample 254 0xF4 []).pc ∧ (sample 254 0xF4 []).pc ≤ 256) ∧
      (sample 256 0xF4 []).status = .running ∧ 254 ≤ (sample 256 0xF4 []).pc ∧ (sample 256 0xF4 []).pc ≤ 256 := by
  decide
theorem witness_illegal_byte : ∃ (s : State) (op : Byte), s.status = .running ∧ s.pc ≤ 253 ∧ byteAt s.mem s.pc = op ∧
    op ∉ ([0x01, 0x82, 0x47, 0x46, 0x45, 0xA2] : List Byte) :=
  ⟨sample 253 0xF4 [0xFF], 0xFF, by decide⟩
theorem witness_halted : ({ sample 0 0xF4 [] with status := .halted } : State).status = .halted := rfl
theorem witness_faulted : ∃ (s : State) (r : FaultRecord), s.status = .faulted r :=
  ⟨takeFault (sample 0 0xF4 []) (some 0) (.unknownOpcode 0), _, rfl⟩
theorem witness_step_faults : ∃ (s : State) (t : State) (r : FaultRecord), step s = .next t ∧ t.status = .faulted r :=
  ⟨sample 0 0 [0x45], _, _, rfl, rfl⟩
theorem witness_checks_fail : ∃ (s : State), StateInv s ∧ s.status = .running ∧ ((stepChecks s).find? StepCheck.fails).isSome :=
  ⟨sample 0 0xF4 [0x46, 0x07], sample_inv (by decide) (by decide), rfl, by decide⟩
theorem witness_checks_hold : ∃ (s : State), StateInv s ∧ s.status = .running ∧ ((stepChecks s).find? StepCheck.fails).isNone :=
  ⟨sample 253 0xF3 [0x46, 0x07], sample_inv (by decide) (by decide), rfl, by decide⟩
theorem witness_running_after_step : ∃ (s : State) (t : State), step s = .next t ∧ t.status = .running :=
  ⟨sample 253 0xF4 [0xA2, 0x07, 0x07], _, rfl, rfl⟩
theorem witness_halts : ∃ (s : State) (t : State), step s = .next t ∧ byteAt s.mem s.pc = 0x01 ∧ t.status = .halted :=
  ⟨sample 253 0xF4 [0x01], _, rfl, by decide, rfl⟩
theorem witness_at_253_long : ∃ (s : State) (t : State), s.pc = 253 ∧ step s = .next t ∧ t.status = .running ∧ byteAt s.mem 253 = 0x82 :=
  ⟨sample 253 0xF4 [0x82, 0x00, 0x07], _, rfl, rfl, rfl, by decide⟩
theorem witness_at_253_short : ∃ (s : State) (t : State), s.pc = 253 ∧ step s = .next t ∧ t.status = .running ∧ byteAt s.mem 253 = 0x47 :=
  ⟨sample 253 0xF4 [0x47, 0x00, 0xFF], _, rfl, rfl, rfl, by decide⟩
theorem witness_hlt_in_memory : ∃ (s : State), s.status = .running ∧ byteAt s.mem s.pc = 0x01 ∧ s.pc ≤ 253 :=
  ⟨sample 253 0xF4 [0x01], by decide⟩
theorem witness_hlt_at_end : (∃ (s : State), s.status = .running ∧ byteAt s.mem s.pc = 0x01 ∧ s.pc = 254) ∧
    ∃ (s : State), s.status = .running ∧ byteAt s.mem s.pc = 0x01 ∧ s.pc = 255 :=
  ⟨⟨sample 254 0xF4 [0x01], by decide⟩, sample 255 0xF4 [0x01], by decide⟩
/-- The register clauses of LDI, PRN and MUL: the last index that names a register and the first that does not. -/
theorem witness_register_bounds : ((7 : Byte).toNat = (7 : RegIdx).val ∧ (7 : Byte).toNat < 8) ∧
    8 ≤ (8 : Byte).toNat := by decide
/-- MUL's commutativity clause: a state with the two registers' contents exchanged. -/
theorem witness_exchanged_registers : ∃ s s' : State, readReg s' 0 = readReg s 1 ∧ readReg s' 1 = readReg s 0 ∧
    readReg s 0 ≠ readReg s 1 :=
  ⟨{ sample 0 0xF4 [] with x := #v[200, 3, 0, 0, 0, 0, 0, 0] },
    { sample 0 0xF4 [] with x := #v[3, 200, 0, 0, 0, 0, 0, 0] }, by decide⟩
theorem witness_pop : ∃ (ra : Byte) (r : RegIdx) (s : State), ra.toNat = r.val ∧ s.sp < 0xF4 :=
  ⟨7, 7, sample 0 0xF3 [], by decide⟩
theorem witness_push : ∃ (ra : Byte) (r : RegIdx) (s : State),
    Memory.wf s.mem = true ∧ ra.toNat = r.val ∧ 0 < s.sp ∧ s.sp ≤ 0xF4 :=
  ⟨7, 7, sample 0 1 [0x45, 0x07], by decide⟩
theorem witness_push_full : ∃ (ra : Byte) (s : State), ra.toNat < 8 ∧ s.sp = 0 := ⟨7, sample 0 0 [], by decide⟩
theorem witness_pop_empty : ∃ (ra : Byte) (s : State), ra.toNat < 8 ∧ 0xF4 ≤ s.sp := ⟨7, sample 0 0xF4 [], by decide⟩
theorem witness_bad_index : (Instr.mul 7 8).regOperands.find? (fun r => decide (8 ≤ r.toNat)) = some 8 := by decide
theorem witness_alu_completes : ∃ (op a b : Byte) (s t : State), aluDispatch op a b s = .ok t :=
  ⟨0xA2, 7, 0, sample 0 0xF4 [], _, rfl⟩
theorem witness_alu_other : (0xA0 : Byte) ≠ 0xA2 := by decide
theorem witness_frame_no_store : ∃ (i : Instr) (s : State) (t : State), (∀ ra, i ≠ .push ra) ∧ exec i s = .next t ∧ readReg t 7 ≠ readReg s 7 :=
  ⟨.ldi 7 1, sample 0 0xF4 [], _, (fun _ h => Instr.noConfusion h), rfl, by decide⟩
theorem witness_frame_push : ∃ (ra : Byte) (s t : State) (access : StackAccess), Memory.wf s.mem = true ∧
    exec (.push ra) s = .next t ∧ stackPush s.sp = .ok access :=
  ⟨7, sample 0 1 [], _, _, by decide, rfl, rfl⟩
theorem witness_frame_push_full : ∃ (ra : Byte) (s t : State) (c : Cause), Memory.wf s.mem = true ∧
    exec (.push ra) s = .next t ∧ stackPush s.sp = .error c :=
  ⟨7, sample 0 0 [], _, _, by decide, rfl, rfl⟩
theorem witness_sp_moves : (∃ (i : Instr) (s : State) (t : State), exec i s = .next t ∧ t.sp < s.sp) ∧ ∃ (i : Instr) (s : State) (t : State), exec i s = .next t ∧ s.sp < t.sp :=
  ⟨⟨.push 0, sample 0 1 [], _, rfl, by decide⟩, .pop 0, sample 0 0xF3 [], _, rfl, by decide⟩
theorem witness_memory_written : ∃ (s : State) (t : State) (a : Nat), StateInv s ∧ step s = .next t ∧ byteAt t.mem a ≠ byteAt s.mem a :=
  ⟨{ sample 0 0xF4 [0x45, 0x07] with x := #v[0, 0, 0, 0, 0, 0, 0, 5] }, _, 0xF3,
    .of_running (by decide) (by decide) (by decide) rfl, rfl, by decide⟩
theorem witness_above_stack : ∃ (s : State) (t : State) (a : Nat), StateInv s ∧ step s = .next t ∧ 0xF4 ≤ a ∧ byteAt t.mem a ≠ 0 :=
  ⟨sample 0xF4 0xF4 [0x45, 0x07], _, 0xF4, sample_inv (by decide) (by decide), rfl, by decide, by decide⟩
theorem witness_output : ∃ (s : State) (t : State), step s = .next t ∧ t.out ≠ s.out := ⟨sample 0 0xF4 [0x47], _, rfl, by decide⟩
theorem witness_pc_never_data : ∃ (i : Instr) (s : State) (t : State), exec i s = .next t ∧ t.status = .running :=
  ⟨.mul 7 0, sample 9 0xF4 [], _, rfl, rfl⟩
/-- PUSH at 0 writes the cell the next step fetches its opcode from. -/
theorem witness_pushed_byte_fetched : ∃ (s : State) (t : State) (r : RegIdx), StateInv s ∧ byteAt s.mem s.pc = 0x45 ∧
    (byteAt s.mem (s.pc + 1)).toNat = r.val ∧ step s = .next t ∧ t.status = .running ∧ t.pc ≤ 253 ∧ t.pc = t.sp :=
  ⟨sample 0 3 [0x45, 0x07], _, 7, sample_inv (by decide) (by decide), by decide, by decide, rfl, rfl,
    by decide, by decide⟩
theorem witness_pushed_byte_operands : (∃ (s : State) (t : State), step s = .next t ∧ t.status = .running ∧ t.pc + 1 = t.sp) ∧
    ∃ (s : State) (t : State), step s = .next t ∧ t.status = .running ∧ t.pc + 2 = t.sp :=
  ⟨⟨sample 0 4 [0x45, 0x07], _, rfl, rfl, by decide⟩, sample 0 5 [0x45, 0x07], _, rfl, rfl, by decide⟩
theorem witness_placed_word : ∃ (s : State) (i : Instr), Memory.wf s.mem = true ∧ s.status = .running ∧ s.pc ≤ 253 ∧
    decodeTableWord 24 0xFF0782 = some i :=
  ⟨sample 253 0xF4 [], .ldi 7 255, by decide⟩

/-- PUSH R1, PUSH R2, POP R1, POP R2: a sequence that never pops an empty stack and pops all it pushed. -/
def swapOps : List StackOp := [.push 1, .push 2, .pop 1, .pop 2]

theorem witness_never_pops_empty : NeverPopsEmpty swapOps := by
  intro k
  match k with
  | 0 | 1 | 2 | 3 => decide
  | k + 4 => simp [swapOps, pops, pushes]
theorem witness_stack_run : ∃ (s : State) (t : State), StateInv s ∧ s.status = .running ∧ pops swapOps = pushes swapOps ∧
    pushes swapOps ≤ s.sp ∧ runInstrs (swapOps.map StackOp.instr) s = some t :=
  ⟨sample 0 2 [], _, sample_inv (by decide) (by decide), rfl, rfl, by decide, rfl⟩
theorem witness_push_then_pop : ∃ (s : State), StateInv s ∧ s.status = .running ∧ 0 < s.sp :=
  ⟨sample 0 1 [], sample_inv (by decide) (by decide), rfl, by decide⟩

end Sys2Proof.Tests
end

section
/-! What `State.reset` holds in the register file, PC and SP (spec/10_state.md sections 2 to 4). -/

namespace Sys2Proof.Machine

/-- R24: the register file is zero-initialized. -/
@[simp] theorem readReg_reset (r : RegIdx) : readReg State.reset r = 0 :=
  Vector.getElem_replicate r.isLt

/-- R27. -/
@[simp] theorem reset_pc : State.reset.pc = 0 := rfl

/-- R31, with the spec's literal for `Config.spReset`. -/
@[simp] theorem reset_sp : State.reset.sp = 0xF4 := rfl

/-- Settles O1: the reset value of each of the three, one lemma per part. -/
theorem resetRegistersPcAndStackPointer : Obligations.ResetRegistersPcAndStackPointer :=
  ⟨readReg_reset, reset_pc, reset_sp⟩

end Sys2Proof.Machine
end

section
/-! The opcode map of spec/30_encoding.md section 5 (R77), row by row: what the opcode byte decodes to, whatever the two
bytes after it are, and the bytes the instruction encodes to. -/

namespace Sys2Proof

@[simp] theorem decode_opHlt (a b : Byte) : decode ⟨opHlt, a, b⟩ = .instr .hlt := rfl
@[simp] theorem decode_opLdi (a b : Byte) : decode ⟨opLdi, a, b⟩ = .instr (.ldi a b) := rfl
@[simp] theorem decode_opPrn (a b : Byte) : decode ⟨opPrn, a, b⟩ = .instr (.prn a) := rfl
@[simp] theorem decode_opPop (a b : Byte) : decode ⟨opPop, a, b⟩ = .instr (.pop a) := rfl
@[simp] theorem decode_opPush (a b : Byte) : decode ⟨opPush, a, b⟩ = .instr (.push a) := rfl
@[simp] theorem decode_opMul (a b : Byte) : decode ⟨opMul, a, b⟩ = .instr (.mul a b) := rfl

@[simp] theorem encode_hlt : encode .hlt = [opHlt] := rfl
@[simp] theorem encode_ldi (ra imm8 : Byte) : encode (.ldi ra imm8) = [opLdi, ra, imm8] := rfl
@[simp] theorem encode_prn (ra : Byte) : encode (.prn ra) = [opPrn, ra] := rfl
@[simp] theorem encode_pop (ra : Byte) : encode (.pop ra) = [opPop, ra] := rfl
@[simp] theorem encode_push (ra : Byte) : encode (.push ra) = [opPush, ra] := rfl
@[simp] theorem encode_mul (ra rb : Byte) : encode (.mul ra rb) = [opMul, ra, rb] := rfl

end Sys2Proof

namespace Sys2Proof.Machine

/-- Settles O11: the rows of the map for all operand bytes, then the fields and handler group of the six closed opcode
bytes. -/
theorem opcodeMap : Obligations.OpcodeMap := by
  refine ⟨fun a b => ?rows, ?fields⟩
  case rows =>
    exact ⟨decode_opHlt a b, encode_hlt, decode_opLdi a b, encode_ldi a b, decode_opPrn a b, encode_prn a,
      decode_opPop a b, encode_pop a, decode_opPush a b, encode_push a, decode_opMul a b, encode_mul a b⟩
  case fields => decide

end Sys2Proof.Machine
end

section
/-! The fetch, decode and dispatch loop (spec/40_execution_loop.md sections 3 to 6): the decoder's two outputs, and where
PC stands after a step. -/

namespace Sys2Proof

/-- The operand count is the opcode byte's top two bits (R104). -/
theorem operandCount_eq_div (op : Byte) : operandCount op = op.toNat / 64 := by
  have hshift : operandCount op = op.toNat / 2 ^ 6 % 2 ^ 2 := by
    rw [operandCount, BitVec.extractLsb'_toNat, Nat.shiftRight_eq_div_pow]
  have hop : op.toNat < 256 := op.isLt
  omega

/-- An instruction's length in bytes is its operand count and 1 (R106). -/
theorem encode_length (i : Instr) : (encode i).length = operandCount (opcodeOf i) + 1 :=
  congrArg (· + 1) (operandCount_opcodeOf i).symm

/-- HLT is the one instruction with its opcode byte (R77). -/
theorem opcodeOf_ne_opHlt {i : Instr} (h : i ≠ .hlt) : opcodeOf i ≠ opHlt := by
  intro hop
  have hpos := operandCount_pos h
  rw [hop, operandCount_opHlt] at hpos
  omega

end Sys2Proof

namespace Sys2Proof.Machine

/-- How a step ends (R33, R106, R107): it halts at an HLT byte, it completes another instruction and runs on with PC
advanced by the length its opcode byte gives, or it takes a fault. -/
theorem step_next_cases {s t : State} (h : step s = .next t) :
    (byteAt s.mem s.pc = opHlt ∧ t = halt s) ∨
      (byteAt s.mem s.pc ≠ opHlt ∧ t.status = .running ∧
        t.pc = s.pc + operandCount (byteAt s.mem s.pc) + 1) ∨
      ∃ opcode c, t = takeFault s opcode c := by
  have hrun := step_next_running h
  obtain ⟨t', ht, hcases⟩ := step_cases hrun
  obtain rfl : t = t' := Host.Outcome.next.inj (h.symm.trans ht)
  rcases hcases with ⟨f, -, -, hfault⟩ | ⟨-, -, hfault⟩ | ⟨-, i, -, hop, -, -, hdone | ⟨c, -, hfault⟩⟩
  case inr.inr.inl =>
    rw [hop]
    rcases hdone.status_pc with ⟨rfl, hhalt⟩ | ⟨hi, hstatus, hpc⟩
    · exact .inl ⟨rfl, hhalt⟩
    · exact .inr (.inl ⟨opcodeOf_ne_opHlt hi, hstatus.trans hrun, hpc⟩)
  all_goals exact .inr (.inr ⟨_, _, hfault⟩)

/-- R106: a step that leaves the machine Running has advanced PC by the operand count and 1. -/
theorem step_running_pc {s t : State} (h : step s = .next t) (hrun : t.status = .running) :
    t.pc = s.pc + operandCount (byteAt s.mem s.pc) + 1 := by
  rcases step_next_cases h with ⟨-, rfl⟩ | ⟨-, -, hpc⟩ | ⟨_, _, rfl⟩
  · simp at hrun
  · exact hpc
  · simp at hrun

/-- R107: a step that does not leave the machine Running holds PC. -/
theorem step_stopped_pc {s t : State} (h : step s = .next t) (hstop : t.status ≠ .running) : t.pc = s.pc := by
  rcases step_next_cases h with ⟨-, rfl⟩ | ⟨-, hrun, -⟩ | ⟨_, _, rfl⟩
  · exact halt_pc s
  · exact absurd hrun hstop
  · exact takeFault_pc ..

/-- R107: a step at an HLT byte halts or takes a fetch fault; it does not run on. -/
theorem step_opHlt_stops {s t : State} (h : step s = .next t) (hop : byteAt s.mem s.pc = opHlt) :
    t.status ≠ .running := by
  rcases step_next_cases h with ⟨-, rfl⟩ | ⟨hne, -, -⟩ | ⟨_, _, rfl⟩
  · simp
  · exact absurd hop hne
  · simp

/-- R33: Halted comes from HLT alone. -/
theorem step_halted_opHlt {s t : State} (h : step s = .next t) (hhalt : t.status = .halted) :
    byteAt s.mem s.pc = opHlt := by
  rcases step_next_cases h with ⟨hop, -⟩ | ⟨-, hrun, -⟩ | ⟨_, _, rfl⟩
  · exact hop
  · simp [hrun] at hhalt
  · simp at hhalt

/-- MUL R0, R0 in the last three cells of memory, about to run (decision D6). -/
def mulAtTop : State := { State.reset with mem := [(253, opMul)], pc := 253 }

/-- The highest PC a step reaches (R106). -/
theorem step_mulAtTop : ∃ t, step mulAtTop = .next t ∧ t.status = .running ∧ t.pc = 256 :=
  ⟨_, rfl, rfl, rfl⟩

/-- Settles O22: the advance of every step that runs on, the encoder's own length, and MUL at 253. -/
theorem pcAdvancesByOperandCountPlusOne : Obligations.PcAdvancesByOperandCountPlusOne := by
  refine ⟨fun s t h hrun => ?advance, fun i => ?length, mulAtTop, step_mulAtTop⟩
  case advance => rw [← operandCount_eq_div, step_running_pc h hrun]
  case length => rw [← operandCount_eq_div, encode_length]

/-- Settles O23: HLT and a fault both leave the machine stopped, and a stopped machine's PC is held. -/
theorem pcHeldOnHaltAndFault : Obligations.PcHeldOnHaltAndFault := by
  refine fun s t h => ⟨fun hop => ?hlt, fun r hfault => ?fault, step_halted_opHlt h⟩
  case hlt => exact step_stopped_pc h (step_opHlt_stops h hop)
  case fault => exact step_stopped_pc h (by simp [hfault])

/-- Settles O12: the operand count for every byte; the selection is by the whole byte, in the order the statement lists
the six values. -/
theorem decoderOutputs : Obligations.DecoderOutputs :=
  fun op => ⟨operandCount_eq_div op, rfl⟩

end Sys2Proof.Machine
end

section
/-! LDI and PRN (spec/41_data_control.md R131, R132): their result and frame for a register index below 8, their
fault for any other, and the text of PRN's output. -/

namespace Sys2Proof.Machine

section
variable (s : State) (r q : RegIdx) (v op : Byte)

@[simp] theorem readReg_advancePc : readReg (advancePc op s) q = readReg s q := rfl
@[simp] theorem readReg_emit : readReg (emit s v) q = readReg s q := rfl

@[simp] theorem readReg_writeReg_same : readReg (writeReg s r v) r = v := by
  rw [readReg_writeReg, if_pos rfl]

theorem keepsRegsBut_writeReg : KeepsRegsBut r s (writeReg s r v) := fun q hq => by
  rw [readReg_writeReg, if_neg hq]

@[simp] theorem outputText_advancePc : outputText (advancePc op s) = outputText s := rfl

/-- R112: an emitted value extends the text by itself in decimal and a newline. -/
theorem outputText_emit : outputText (emit s v) = outputText s ++ toString v.toNat ++ "\n" := by
  simp only [outputText, emit_out, List.foldl_append, List.foldl_cons, List.foldl_nil]

end

section
variable {s : State} {ra imm8 : Byte} {r : RegIdx}

/-- A register the operand byte names is the one `checkReg` answers (R23). -/
theorem regIdx_eq_mk (hr : ra.toNat = r.val) : ∃ h : ra.toNat < 8, r = ⟨ra.toNat, h⟩ :=
  ⟨hr ▸ r.isLt, Fin.ext hr.symm⟩

/-- R23, R186: fault entry with an index's cause stops the machine with that index in the record. -/
theorem registerFault_takeFault (s : State) (opcode : Option Byte) (ra : Byte) :
    RegisterFault s (takeFault s opcode (.addressOutOfRange .reg ra.toNat)) ra :=
  ⟨_, rfl, rfl, rfl, rfl⟩

theorem exec_ldi_named (hr : ra.toNat = r.val) :
    exec (.ldi ra imm8) s = .next (advancePc opLdi (writeReg s r imm8)) := by
  obtain ⟨h, rfl⟩ := regIdx_eq_mk hr
  exact execLdi_eq h

theorem exec_prn_named (hr : ra.toNat = r.val) :
    exec (.prn ra) s = .next (advancePc opPrn (emit s (readReg s r))) := by
  obtain ⟨h, rfl⟩ := regIdx_eq_mk hr
  exact execPrn_eq h

end

/-- Settles O26: LDI is one register write and the advance, so the frame is that of `writeReg`; a bad index is fault
entry. -/
theorem ldiLoadsTheImmediate : Obligations.LdiLoadsTheImmediate := by
  refine ⟨fun a b => ⟨decode_opLdi a b, encode_ldi a b⟩, operandCount_opLdi,
    fun ra imm8 s => ⟨fun r hr => ⟨_, exec_ldi_named hr, ?result, ?pc, ?regs, ?rest⟩, fun h => ?fault⟩⟩
  case result => simp
  case pc => simp
  case regs => exact keepsRegsBut_writeReg s r imm8
  case rest => simp [KeepsMemory]
  case fault => exact ⟨_, execLdi_badReg h, registerFault_takeFault ..⟩

/-- Settles O27: PRN is one `emit` and the advance, and an `emit` extends the text by one line; a bad index is fault
entry. -/
theorem prnEmitsTheRegister : Obligations.PrnEmitsTheRegister := by
  refine ⟨fun a b => ⟨decode_opPrn a b, encode_prn a⟩, operandCount_opPrn,
    fun ra s => ⟨fun r hr => ⟨_, exec_prn_named hr, ?output, ?pc, ?regs, ?mem, ?sp, ?fl, ?status, ?text⟩,
      fun h => ?fault⟩⟩
  case regs => exact fun q => readReg_emit s q (readReg s r)
  case text => rw [outputText_advancePc, outputText_emit]
  case fault => exact ⟨_, execPrn_badReg h, registerFault_takeFault ..⟩
  all_goals simp [KeepsMemory]

end Sys2Proof.Machine
end

section
/-! alu_dispatch and MUL (spec/42_alu.md R160 to R165): what alu_dispatch can answer, and MUL's result, frame and
faults. -/

namespace Sys2Proof.Machine

section
variable {s t : State} {op a b : Byte} {r q : RegIdx}

/-- R162: the product is of the two values, in either order. -/
theorem mulByte_comm (va vb : Byte) : mulByte va vb = mulByte vb va := by
  rw [mulByte, Nat.mul_comm, ← mulByte]

/-- The index `checkReg` answers is the operand byte (R23). -/
theorem toNat_of_checkReg_ok (h : checkReg a = .ok r) : a.toNat = r.val := by
  by_cases ha : a.toNat < 8
  · rw [checkReg_ok ha] at h
    exact congrArg Fin.val (Except.ok.inj h)
  · rw [checkReg_error (Nat.not_lt.1 ha)] at h
    cases h

/-- R163: an opcode outside the table is rejected. -/
theorem aluDispatch_of_ne_opMul (h : op ≠ opMul) : aluDispatch op a b s = .error (.unsupportedOperation op) := by
  simp only [aluDispatch, aluTable, if_neg h]

/-- R161: the two checks, the destination's first, and then the one write. -/
theorem aluDispatch_opMul : aluDispatch opMul a b s = (checkReg a).bind fun r => (checkReg b).bind fun q =>
    .ok (advancePc opMul (writeReg s r (mulByte (readReg s r) (readReg s q)))) := rfl

/-- When alu_dispatch gives a state, the opcode was MUL's, both operands are register indices, and the state is the one
write of the product and the advance (R160, R161). -/
theorem aluDispatch_ok_cases (h : aluDispatch op a b s = .ok t) :
    op = opMul ∧ ∃ r q : RegIdx, a.toNat = r.val ∧ b.toNat = q.val ∧
      t = advancePc opMul (writeReg s r (mulByte (readReg s r) (readReg s q))) := by
  by_cases hop : op = opMul
  · subst hop
    rw [aluDispatch_opMul] at h
    cases ha : checkReg a with
    | error c => simp [ha, Except.bind] at h
    | ok r =>
      cases hb : checkReg b with
      | error c => simp [ha, hb, Except.bind] at h
      | ok q =>
        rw [ha, hb] at h
        exact ⟨rfl, r, q, toNat_of_checkReg_ok ha, toNat_of_checkReg_ok hb, (Except.ok.inj h).symm⟩
  · rw [aluDispatch_of_ne_opMul hop] at h
    cases h

theorem exec_mul_named (hr : a.toNat = r.val) (hq : b.toNat = q.val) :
    exec (.mul a b) s =
      .next (advancePc opMul (writeReg s r (mulByte (readReg s r) (readReg s q)))) := by
  obtain ⟨ha, rfl⟩ := regIdx_eq_mk hr
  obtain ⟨hb, rfl⟩ := regIdx_eq_mk hq
  exact execMul_eq ha hb

end

/-- Settles O34: what alu_dispatch gives is one register write and the advance, so the frame is that of `writeReg`. -/
theorem aluWritesOnlyItsDestination : Obligations.AluWritesOnlyItsDestination := by
  intro op a b s t h
  obtain ⟨-, r, q, hr, -, rfl⟩ := aluDispatch_ok_cases h
  exact ⟨r, hr, keepsRegsBut_writeReg s r _, fun _ => rfl, rfl, rfl, rfl, rfl⟩

/-- Settles O30: MUL is one register write of the product and the advance, so the frame is that of `writeReg` and the
exchange of the two values is the commutativity of `mulByte`; a bad index is fault entry, the first before the second. -/
theorem mulKeepsTheLowEightBits : Obligations.MulKeepsTheLowEightBits := by
  refine ⟨fun a b => ⟨decode_opMul a b, encode_mul a b⟩, operandCount_opMul, fun ra rb s =>
    ⟨fun r q hr hq => ⟨_, exec_mul_named hr hq, ?product, ?pc, ?regs, ?mem, ?sp, ?fl, ?out, ?status, ?exchanged⟩,
      fun ha => ?badFirst, fun ha hb => ?badSecond⟩⟩
  case product => rw [readReg_advancePc, readReg_writeReg_same, mulByte_toNat]
  case regs => exact keepsRegsBut_writeReg s r _
  case exchanged =>
    intro s' hr' hq'
    refine ⟨_, exec_mul_named hr hq, ?_⟩
    simp only [readReg_advancePc, readReg_writeReg_same, hr', hq']
    exact mulByte_comm _ _
  case badFirst => exact ⟨_, execMul_badFirst ha, registerFault_takeFault ..⟩
  case badSecond => exact ⟨_, execMul_badSecond ha hb, registerFault_takeFault ..⟩
  all_goals simp [KeepsMemory]

end Sys2Proof.Machine
end

section
/-! Decoding against encoding (spec/30_encoding.md sections 1 to 6): the fetched bytes of an instruction, its table word,
and the illegal bytes. -/

namespace Sys2Proof

/-- The bytes an instruction decodes from begin with its own (R70, R75). -/
theorem encode_prefix_of_decode {i : Instr} {w : Window} (h : decode w = .instr i) :
    encode i <+: [w.op, w.a, w.b] := by
  rcases decode_cases w with ⟨j, hj, hop, hbytes⟩ | ⟨hill, -⟩
  · obtain rfl : i = j := Decoded.instr.inj (h.symm.trans hj)
    rw [encode, hop, hbytes, List.cons_prefix_cons]
    exact ⟨rfl, List.take_prefix _ _⟩
  · rw [h] at hill
    cases hill

/-- Bytes that begin with an instruction's own decode to it, whatever follows (R75, R76). -/
theorem decode_of_encode_prefix {i : Instr} {w : Window} (h : encode i <+: [w.op, w.a, w.b]) :
    decode w = .instr i := by
  obtain ⟨op, a, b⟩ := w
  cases i <;> simp only [encode_hlt, encode_ldi, encode_prn, encode_pop, encode_push, encode_mul,
    List.cons_prefix_cons, List.nil_prefix, and_true] at h
  case hlt => subst h; exact decode_opHlt a b
  case ldi => obtain ⟨rfl, rfl, rfl⟩ := h; exact decode_opLdi _ _
  case prn => obtain ⟨rfl, rfl⟩ := h; exact decode_opPrn _ b
  case pop => obtain ⟨rfl, rfl⟩ := h; exact decode_opPop _ b
  case push => obtain ⟨rfl, rfl⟩ := h; exact decode_opPush _ b
  case mul => obtain ⟨rfl, rfl, rfl⟩ := h; exact decode_opMul _ _

/-- Settles O9: the decoder's answer names the bytes it used, and the opcode map gives the converse for each
instruction. -/
theorem decodeAgreesWithEncode : Obligations.DecodeAgreesWithEncode :=
  fun _ _ => ⟨encode_prefix_of_decode, decode_of_encode_prefix⟩

theorem decodeTableWord_eq_some {nbits w : Nat} {i : Instr} :
    decodeTableWord nbits w = some i ↔ decode (windowOfTableWord nbits w) = .instr i := by
  unfold decodeTableWord
  split <;> simp [*]

/-- The number that bytes make, the first the least significant (opcode_table.json). -/
def wordOfBytes (bs : List Byte) : Nat := bs.foldr (fun b rest => b.toNat + 256 * rest) 0

@[simp] theorem wordOfBytes_nil : wordOfBytes [] = 0 := rfl

@[simp] theorem wordOfBytes_cons (b : Byte) (bs : List Byte) :
    wordOfBytes (b :: bs) = b.toNat + 256 * wordOfBytes bs := rfl

theorem wordOfBytes_lt (bs : List Byte) : wordOfBytes bs < 2 ^ (8 * bs.length) := by
  induction bs with
  | nil => simp
  | cons b bs ih =>
    have hb : b.toNat < 256 := b.isLt
    have hpow : 2 ^ (8 * (b :: bs).length) = 256 * 2 ^ (8 * bs.length) := by
      rw [List.length_cons, Nat.mul_succ, Nat.pow_add, Nat.mul_comm]
    rw [wordOfBytes_cons, hpow]
    omega

/-- The lowest byte of a word is its first. -/
theorem ofNat_byte_add (b : Byte) (n : Nat) : BitVec.ofNat 8 (b.toNat + 256 * n) = b :=
  BitVec.eq_of_toNat_eq (by have := b.isLt; rw [BitVec.toNat_ofNat]; omega)

/-- The bytes above the lowest are the rest of the word. -/
theorem byte_add_div (b : Byte) (n : Nat) : (b.toNat + 256 * n) / 256 = n := by
  have := b.isLt
  omega

/-- A word of at most three bytes, read at its own length, begins with them. -/
theorem prefix_windowOfTableWord {bs : List Byte} (hlen : bs.length ≤ 3) :
    bs <+: [(windowOfTableWord (8 * bs.length) (wordOfBytes bs)).op,
      (windowOfTableWord (8 * bs.length) (wordOfBytes bs)).a,
      (windowOfTableWord (8 * bs.length) (wordOfBytes bs)).b] := by
  have hdiv : ∀ v, v / 2 ^ 16 = v / 256 / 256 := fun v => by omega
  simp only [windowOfTableWord, Nat.mod_eq_of_lt (wordOfBytes_lt bs), hdiv]
  match bs, hlen with
  | [], _ => exact List.nil_prefix
  | [b], _ => simp
  | [b, c], _ => simp [ofNat_byte_add, byte_add_div]
  | [b, c, d], _ => simp [ofNat_byte_add, byte_add_div]

theorem encode_length_le (i : Instr) : (encode i).length ≤ 3 := by
  rw [encode_length]
  exact Nat.succ_le_succ (operandCount_le i)

/-- Settles O10: the word's window begins with the instruction's bytes, and such a window decodes to it. -/
theorem tableWordRoundTrip : Obligations.TableWordRoundTrip := fun i =>
  decodeTableWord_eq_some.2 (decode_of_encode_prefix (prefix_windowOfTableWord (encode_length_le i)))

/-- Settles O13: nine closed words. -/
theorem sampleWordsDecode : Obligations.SampleWordsDecode := by
  unfold Obligations.SampleWordsDecode
  decide

/-- The six bytes of the opcode map (R77). -/
def legalBytes : List Byte := [opHlt, opLdi, opPrn, opPop, opPush, opMul]

/-- R79: the illegal bytes are those the map does not list. -/
theorem select_eq_illegal_iff (op : Byte) : select op = .illegal ↔ op ∉ legalBytes := by
  rcases select_cases op with ⟨h, e⟩ | ⟨h, e⟩ | ⟨h, e⟩ | ⟨h, e⟩ | ⟨h, e⟩ | ⟨h, e⟩ | ⟨h, e⟩ <;> rw [e]
  case inr.inr.inr.inr.inr.inr => exact iff_of_true rfl h
  all_goals simp [h, legalBytes]

/-- No opcode of the map has operand count 3, and MUL's alone has bit 5 set. -/
theorem fields_of_mem_legalBytes :
    ∀ op ∈ legalBytes, operandCount op ≠ 3 ∧ (aluFlag op = true → op = opMul) := by decide

/-- The values of the map's bytes. -/
def legalValues : Finset Nat := {0x01, 0x82, 0x47, 0x46, 0x45, 0xA2}

theorem ofNat_mem_legalBytes_iff {v : Nat} (hv : v < 256) : BitVec.ofNat 8 v ∈ legalBytes ↔ v ∈ legalValues := by
  simp [legalBytes, legalValues, opHlt, opLdi, opPrn, opPop, opPush, opMul, BitVec.toNat_eq, Nat.mod_eq_of_lt hv]

/-- The values that decode to no instruction are those of a byte without the map's six. -/
theorem filter_select_illegal :
    (Finset.range 256).filter (fun v => select (BitVec.ofNat 8 v) = .illegal) = Finset.range 256 \ legalValues := by
  ext v
  rw [Finset.mem_filter, Finset.mem_sdiff, Finset.mem_range]
  exact and_congr_right fun hv =>
    (select_eq_illegal_iff _).trans (not_congr (ofNat_mem_legalBytes_iff hv))

theorem card_select_illegal :
    ((Finset.range 256).filter fun v => select (BitVec.ofNat 8 v) = .illegal).card = 250 := by
  have hsub : legalValues ⊆ Finset.range 256 := by decide
  have hcard : legalValues.card = 6 := by decide
  rw [filter_select_illegal, Finset.card_sdiff_of_subset hsub, Finset.card_range, hcard]

/-- Settles O14: the count over the 256 bytes; a byte of the map has neither operand count 3 nor, but for MUL's, bit 5
set. -/
theorem twoHundredFiftyIllegalBytes : Obligations.TwoHundredFiftyIllegalBytes := by
  refine ⟨?count, by decide, fun op => ⟨fun hcount => ?three, fun halu hne => ?alu⟩⟩
  case count => exact card_select_illegal
  case three => exact (select_eq_illegal_iff op).2 fun hmem => (fields_of_mem_legalBytes op hmem).1 hcount
  case alu => exact (select_eq_illegal_iff op).2 fun hmem => hne ((fields_of_mem_legalBytes op hmem).2 halu)

end Sys2Proof
end

section
/-! What an instruction's checks decide, said once: the first that fails, and that exec is the fault it raises or the one
completed state (spec/60_exceptions.md section 3). -/

namespace Sys2Proof.Machine

/-- The stack check of an instruction at this SP (R133, R134); a write beyond the array is last, from no state of the
invariant. -/
def stackFault : Instr → Nat → Option Cause
  | .push _, sp =>
    if sp = 0 then some (.stackOverflow sp) else if 256 < sp then some (.addressOutOfRange .mem (sp - 1)) else none
  | .pop _, sp => if 0xF4 ≤ sp then some (.stackUnderflow sp) else none
  | _, _ => none

/-- The first of these bytes that is no register index (R23). -/
def firstBadReg (operands : List Byte) : Option Byte := operands.find? fun r => decide (8 ≤ r.toNat)

/-- The fault of an instruction at this SP, if it has one: its register checks in order, then its stack check (R189;
decision D9). -/
def firstFault (i : Instr) (sp : Nat) : Option Cause :=
  ((firstBadReg i.regOperands).map fun r => .addressOutOfRange .reg r.toNat).or (stackFault i sp)

@[simp] theorem firstBadReg_nil : firstBadReg [] = none := rfl

@[simp] theorem firstBadReg_cons (r : Byte) (rs : List Byte) :
    firstBadReg (r :: rs) = if 8 ≤ r.toNat then some r else firstBadReg rs := by
  by_cases h : 8 ≤ r.toNat <;> simp [firstBadReg, h]

theorem firstBadReg_eq_none {operands : List Byte} :
    firstBadReg operands = none ↔ ∀ r ∈ operands, r.toNat < 8 := by
  simp [firstBadReg]

section
variable {i : Instr} {s t : State} {c : Cause}

/-- A completed instruction is the only answer of exec. -/
theorem Completes.exec_eq (h : Completes s i t) : exec i s = .next t := by
  cases h with
  | hlt => exact execHlt_eq
  | ldi h => exact execLdi_eq h
  | prn h => exact execPrn_eq h
  | pop h hsp => exact execPop_eq h hsp
  | push h hsp hb => exact execPush_eq h hsp hb
  | mul ha hb => exact execMul_eq ha hb

/-- A bad register operand is reported before the stack is looked at, the first of two first (R23, R189). -/
theorem exec_of_badReg {index : Byte} (h : firstBadReg i.regOperands = some index) :
    exec i s = .next (takeFault s (some (opcodeOf i)) (.addressOutOfRange .reg index.toNat)) := by
  cases i <;> simp only [Instr.regOperands, firstBadReg_cons, firstBadReg_nil, Option.ite_none_right_eq_some,
    Option.some.injEq, reduceCtorEq] at h
  case ldi => obtain ⟨hbad, rfl⟩ := h; exact execLdi_badReg hbad
  case prn => obtain ⟨hbad, rfl⟩ := h; exact execPrn_badReg hbad
  case pop => obtain ⟨hbad, rfl⟩ := h; exact execPop_badReg hbad
  case push => obtain ⟨hbad, rfl⟩ := h; exact execPush_badReg hbad
  case mul ra rb =>
    split at h
    · next ha => cases h; exact execMul_badFirst ha
    · next ha =>
      obtain ⟨hb, rfl⟩ : 8 ≤ rb.toNat ∧ rb = index := by simpa using h
      exact execMul_badSecond (Nat.not_le.1 ha) hb

/-- With good register operands, a stack check that fails is the fault (R133, R134). -/
theorem exec_of_stackFault (hregs : ∀ r ∈ i.regOperands, r.toNat < 8) (h : stackFault i s.sp = some c) :
    exec i s = .next (takeFault s (some (opcodeOf i)) c) := by
  cases i <;> simp only [stackFault, reduceCtorEq] at h
  case pop ra =>
    have hra : ra.toNat < 8 := hregs ra (List.mem_singleton_self ra)
    split at h
    · cases h; exact execPop_empty hra (by assumption)
    · cases h
  case push ra =>
    have hra : ra.toNat < 8 := hregs ra (List.mem_singleton_self ra)
    split at h
    · next hsp => cases h; rw [hsp]; exact execPush_full hra hsp
    · split at h
      · cases h; exact execPush_outside hra (by assumption)
      · cases h

/-- Exec takes the fault of the first check that fails. -/
theorem exec_of_firstFault (h : firstFault i s.sp = some c) :
    exec i s = .next (takeFault s (some (opcodeOf i)) c) := by
  cases hbad : firstBadReg i.regOperands with
  | some r =>
    obtain rfl : .addressOutOfRange .reg r.toNat = c := by simpa [firstFault, hbad] using h
    exact exec_of_badReg hbad
  | none => exact exec_of_stackFault (firstBadReg_eq_none.1 hbad) (by simpa [firstFault, hbad] using h)

/-- A fault an instruction can raise comes from a check that fails. -/
theorem RaisedBy.firstFault_ne_none (h : RaisedBy s i c) : firstFault i s.sp ≠ none := by
  intro hnone
  obtain ⟨hbad, hstack⟩ : firstBadReg i.regOperands = none ∧ stackFault i s.sp = none := by
    simpa [firstFault] using hnone
  cases h with
  | badReg hr h => exact absurd (firstBadReg_eq_none.1 hbad _ hr) (Nat.not_lt.2 h)
  | full h => simp [stackFault, h] at hstack
  | empty h => simp [stackFault, Nat.not_lt.2 h] at hstack
  | outside h => simp [stackFault, Nat.not_le.2 h, show s.sp ≠ 0 by omega] at hstack

/-- What exec answered: the one completed state where no check fails, and otherwise the fault of the first that does. -/
theorem exec_next_cases (h : exec i s = .next t) :
    (firstFault i s.sp = none ∧ Completes s i t) ∨
      ∃ c, firstFault i s.sp = some c ∧ t = takeFault s (some (opcodeOf i)) c := by
  cases hfault : firstFault i s.sp with
  | some c => exact .inr ⟨c, rfl, Host.Outcome.next.inj (h.symm.trans (exec_of_firstFault hfault))⟩
  | none =>
    obtain ⟨t', ht, hdone | ⟨c, hraised, -⟩⟩ := exec_cases i s
    · obtain rfl : t = t' := Host.Outcome.next.inj (h.symm.trans ht)
      exact .inl ⟨rfl, hdone⟩
    · exact absurd hfault hraised.firstFault_ne_none

end

end Sys2Proof.Machine
end

section
/-! One step (spec/40_execution_loop.md R100 to R109): by where its fetch and its decode lead, and what it answered. -/

namespace Sys2Proof.Machine

section
variable {s t : State} {i : Instr} {c : Cause}

/-- Fault entry is stopping with that record and nothing else (R186). -/
theorem takeFault_eq_stoppedBy (s : State) (opcode : Option Byte) (c : Cause) :
    takeFault s opcode c = s.stoppedBy (faultRecord s.pc opcode c) := rfl

/-- The opcode byte of a fetch that leaves memory, if it was read (R103). -/
def fetchedOpcode (s : State) : Option Byte := if s.pc = 256 then none else some (byteAt s.mem s.pc)

/-- From 254 to 256 the first read that fails is the one at 256 (R103, decision D5). -/
theorem fetch_pastEnd (hlo : 254 ≤ s.pc) (hhi : s.pc ≤ 256) :
    fetch s = .error { opcode := fetchedOpcode s, cause := .addressOutOfRange .mem 256 } := by
  by_cases h : s.pc = 256
  · rw [fetch_beyond (by omega), fetchedOpcode, if_pos h, h]
  · rw [fetch_top (by omega), fetchedOpcode, if_neg h]

theorem step_pastEnd (hrun : s.status = .running) (hlo : 254 ≤ s.pc) (hhi : s.pc ≤ 256) :
    step s = .next (takeFault s (fetchedOpcode s) (.addressOutOfRange .mem 256)) :=
  step_of_fetchFault hrun (fetch_pastEnd hlo hhi)

theorem step_of_instr (hrun : s.status = .running) (hpc : s.pc ≤ 253) (hd : decode (windowAt s) = .instr i) :
    step s = exec i s := by
  rw [step_of_fetch hrun hpc, hd]

theorem decode_of_illegal {w : Window} (h : w.op ∉ legalBytes) : decode w = .illegal w.op := by
  simp only [decode, (select_eq_illegal_iff w.op).2 h]

theorem step_of_illegal (hrun : s.status = .running) (hpc : s.pc ≤ 253) (h : byteAt s.mem s.pc ∉ legalBytes) :
    step s = .next (takeFault s (some (byteAt s.mem s.pc)) (.unknownOpcode (byteAt s.mem s.pc))) := by
  rw [step_of_fetch hrun hpc, decode_of_illegal (w := windowAt s) h]
  rfl

/-- What a step answered: it took a fault, or an instruction whose bytes stand at pc completed. -/
theorem step_faults_or_completes (h : step s = .next t) :
    (∃ opcode c, t = takeFault s opcode c) ∨
      (s.pc ≤ 253 ∧ ∃ i, decode (windowAt s) = .instr i ∧ Completes s i t) := by
  obtain ⟨t', ht, hcases⟩ := step_cases (step_next_running h)
  obtain rfl : t = t' := Host.Outcome.next.inj (h.symm.trans ht)
  rcases hcases with ⟨_, -, -, hfault⟩ | ⟨-, -, hfault⟩ | ⟨hpc, i, hd, -, -, -, hdone | ⟨_, -, hfault⟩⟩
  case inr.inr.inl => exact .inr ⟨hpc, i, hd, hdone⟩
  all_goals exact .inl ⟨_, _, hfault⟩

/-- A step that leaves the machine Running completed an instruction. -/
theorem step_running_completes (h : step s = .next t) (hrun : t.status = .running) :
    s.pc ≤ 253 ∧ ∃ i, decode (windowAt s) = .instr i ∧ Completes s i t := by
  rcases step_faults_or_completes h with ⟨_, _, rfl⟩ | hdone
  · simp at hrun
  · exact hdone

/-- PC goes forward by at most 3 (R106). -/
theorem step_pc_le (h : step s = .next t) (hrun : t.status = .running) : t.pc ≤ s.pc + 3 := by
  obtain ⟨-, i, -, hdone⟩ := step_running_completes h hrun
  rcases hdone.status_pc with ⟨-, rfl⟩ | ⟨-, -, hpc⟩
  · simp at hrun
  · have := operandCount_le i
    omega

end

/-- Settles O15: the three bytes at pc are the fetched window. -/
theorem stepRunsTheDecodedInstruction : Obligations.StepRunsTheDecodedInstruction :=
  fun _ _ hrun hpc hd => step_of_instr hrun hpc hd

/-- Settles O16: the fetch fault at 256, whichever read meets it. -/
theorem fetchPastTheEndFaults : Obligations.FetchPastTheEndFaults :=
  fun _ hrun hlo hhi => step_pastEnd hrun hlo hhi

/-- Settles O17: the decoder rejects a byte outside the map, and its rejection is fault entry. -/
theorem illegalByteRaisesUnknownOpcode : Obligations.IllegalByteRaisesUnknownOpcode := by
  rintro s _ hrun hpc rfl hill
  exact step_of_illegal hrun hpc hill

/-- Settles O18: the two arms of `step` for a stopped machine. -/
theorem noStepOnceStopped : Obligations.NoStepOnceStopped :=
  fun s => ⟨fun h => by simp only [step, h], fun r h => by simp only [step, h]⟩

/-- Settles O19: of the ways a step ends only fault entry is Faulted, and it changes the status alone. -/
theorem faultIsPrecise : Obligations.FaultIsPrecise := by
  intro s t r h hfault
  rcases step_next_cases h with ⟨-, rfl⟩ | ⟨-, hrun, -⟩ | ⟨opcode, c, rfl⟩
  · simp at hfault
  · simp [hrun] at hfault
  · obtain rfl : faultRecord s.pc opcode c = r := by simpa using hfault
    exact takeFault_eq_stoppedBy s opcode c

/-- The run from `s` leaves Running, for the first time, after 1 to `n` steps. -/
def EndsWithin (n : Nat) (s : State) : Prop :=
  ∃ k, 1 ≤ k ∧ k ≤ n ∧ (∀ j, j < k → (stateAfter j s).status = .running) ∧ (stateAfter k s).status ≠ .running

theorem endsWithin_of_stop {n : Nat} {s t : State} (h : step s = .next t) (hstop : t.status ≠ .running) :
    EndsWithin (n + 1) s := by
  refine ⟨1, le_rfl, by omega, fun j hj => ?_, by rwa [stateAfter_succ h]⟩
  obtain rfl : j = 0 := by omega
  exact step_next_running h

theorem endsWithin_succ {n : Nat} {s t : State} (h : step s = .next t) (ht : EndsWithin n t) :
    EndsWithin (n + 1) s := by
  obtain ⟨k, -, hk, hbefore, hend⟩ := ht
  refine ⟨k + 1, by omega, by omega, fun j hj => ?_, by rwa [stateAfter_succ h]⟩
  cases j with
  | zero => exact step_next_running h
  | succ j =>
    rw [stateAfter_succ h]
    exact hbefore j (by omega)

/-- A run ends within `n + 1` steps when `n` advances of 2 bytes reach 254, where the fetch faults (R110). -/
theorem endsWithin_of_pc {n : Nat} {s : State} (hrun : s.status = .running) (hn : 254 ≤ s.pc + 2 * n) :
    EndsWithin (n + 1) s := by
  induction n generalizing s with
  | zero =>
    obtain ⟨t, ht, -⟩ := step_cases hrun
    refine endsWithin_of_stop ht fun hrun' => ?_
    have := (running_step_progress ht hrun').1
    omega
  | succ n ih =>
    obtain ⟨t, ht, -⟩ := step_cases hrun
    by_cases hrun' : t.status = .running
    · have := (running_step_progress ht hrun').2
      exact endsWithin_succ ht (ih hrun' (by omega))
    · exact endsWithin_of_stop ht hrun'

/-- Settles O21: 127 advances of 2 bytes reach 254 from any PC. -/
theorem runEndsByStep128 : Obligations.RunEndsByStep128 :=
  fun _ hrun => endsWithin_of_pc (n := 127) hrun (by omega)

/-- Settles O24: the step at 253 advances by 2 or 3, and the next fetch is past the end. -/
theorem instructionAt253RunsIntoTheEnd : Obligations.InstructionAt253RunsIntoTheEnd := by
  intro s t hpc h hrun
  have hadvance := step_running_pc h hrun
  have hlo := (running_step_progress h hrun).2
  have hhi := step_pc_le h hrun
  rw [hpc] at hadvance hlo hhi
  refine ⟨?long, ?short, ?next⟩
  case long =>
    rintro (hop | hop) <;> rw [hadvance, hop] <;> rfl
  case short =>
    rintro (hop | hop | hop) <;> rw [hadvance, hop] <;> rfl
  case next =>
    rw [step_pastEnd hrun (by omega) (by omega), takeFault_eq_stoppedBy, fetchedOpcode]
    by_cases h256 : t.pc = 256
    · simp only [h256, if_true]; rfl
    · obtain h255 : t.pc = 255 := by omega
      simp only [h255]; rfl

/-- Settles O25: HLT's meaning is the halt; a halted machine has no step; at 254 and 255 the fetch faults first. -/
theorem hltHalts : Obligations.HltHalts := by
  refine fun s => ⟨execHlt_eq, fun hrun hop => ⟨fun hpc => ⟨?halts, ?stopped⟩, fun hpc => ?fetch⟩⟩
  case halts =>
    have hd : decode (windowAt s) = .instr .hlt :=
      decode_of_encode_prefix (List.cons_prefix_cons.2 ⟨hop.symm, List.nil_prefix⟩)
    exact (step_of_instr hrun hpc hd).trans execHlt_eq
  case stopped =>
    intro u hu
    simpa using step_next_running hu
  case fetch =>
    exact ⟨_, step_pastEnd hrun (by omega) (by omega), rfl, rfl⟩

end Sys2Proof.Machine
end

section
/-! The order of a step's checks (spec/60_exceptions.md section 3, decision D9): the list of R189 read against the fetch,
the decode and the instruction's own checks. -/

namespace Sys2Proof.Machine

section
variable {s t : State} {i : Instr} {c : Cause}

/-- The check of the list that fails with this opcode byte and cause. -/
def failedCheck (opcode : Option Byte) (c : Cause) : StepCheck := ⟨true, opcode, c⟩

theorem ite_some_or {α : Type} (p : Prop) [Decidable p] (a : α) (x y : Option α) :
    (if p then some a else x).or y = if p then some a else x.or y := by
  by_cases h : p <;> simp [h]

theorem find?_check (p : Prop) [Decidable p] (opcode : Option Byte) (c : Cause) (cs : List StepCheck) :
    (⟨decide p, opcode, c⟩ :: cs : List StepCheck).find? StepCheck.fails =
      if p then some (failedCheck opcode c) else cs.find? StepCheck.fails := by
  by_cases h : p <;> simp [h, failedCheck]

theorem firstCheck_pastEnd (hlo : 254 ≤ s.pc) (hhi : s.pc ≤ 256) :
    (stepChecks s).find? StepCheck.fails = some (failedCheck (fetchedOpcode s) (.addressOutOfRange .mem 256)) := by
  obtain h | h | h : s.pc = 254 ∨ s.pc = 255 ∨ s.pc = 256 := by omega
  all_goals simp [stepChecks, failedCheck, fetchedOpcode, h]

theorem firstCheck_illegal (hpc : s.pc ≤ 253) (hill : byteAt s.mem s.pc ∉ legalBytes) :
    (stepChecks s).find? StepCheck.fails =
      some (failedCheck (some (byteAt s.mem s.pc)) (.unknownOpcode (byteAt s.mem s.pc))) := by
  have hill' : byteAt s.mem s.pc ∉ ([0x01, 0x82, 0x47, 0x46, 0x45, 0xA2] : List Byte) := hill
  have h0 : ¬ 256 ≤ s.pc := by omega
  have h1 : ¬ 256 ≤ s.pc + 1 := by omega
  have h2 : ¬ 256 ≤ s.pc + 2 := by omega
  simp only [stepChecks, find?_check, h0, h1, h2, hill', if_false, if_true, not_false_eq_true]

/-- With an opcode of the map inside memory the first four checks hold, and the register and stack checks decide. -/
theorem firstCheck_legal (hpc : s.pc ≤ 253) (hlegal : byteAt s.mem s.pc ∈ legalBytes) :
    (stepChecks s).find? StepCheck.fails = ((stepChecks s).drop 4).find? StepCheck.fails := by
  have hlegal' : ¬ byteAt s.mem s.pc ∉ ([0x01, 0x82, 0x47, 0x46, 0x45, 0xA2] : List Byte) := not_not.2 hlegal
  have h0 : ¬ 256 ≤ s.pc := by omega
  have h1 : ¬ 256 ≤ s.pc + 1 := by omega
  have h2 : ¬ 256 ≤ s.pc + 2 := by omega
  simp only [stepChecks, List.drop, find?_check, h0, h1, h2, hlegal', if_false]

theorem opcodeOf_mem_legalBytes (i : Instr) : opcodeOf i ∈ legalBytes := by
  cases i <;> simp [opcodeOf, legalBytes]

/-- With an instruction at pc the checks left are its own, in its own order. -/
theorem firstCheck_instr (hpc : s.pc ≤ 253) (hsp : s.sp ≤ 0xF4) (hd : decode (windowAt s) = .instr i) :
    (stepChecks s).find? StepCheck.fails = (firstFault i s.sp).map (failedCheck (some (opcodeOf i))) := by
  have hbytes := encode_prefix_of_decode hd
  have hop : byteAt s.mem s.pc = opcodeOf i := (List.cons_prefix_cons.1 hbytes).1.symm
  have hinside : ¬ 256 < s.sp := by omega
  rw [firstCheck_legal hpc (hop ▸ opcodeOf_mem_legalBytes i)]
  simp only [stepChecks, List.drop, find?_check, hop, windowAt] at hbytes ⊢
  cases i <;> simp only [encode_hlt, encode_ldi, encode_prn, encode_pop, encode_push, encode_mul,
    List.cons_prefix_cons, List.nil_prefix, and_true] at hbytes
  case' ldi => obtain ⟨-, rfl, rfl⟩ := hbytes
  case' prn | pop | push => obtain ⟨-, rfl⟩ := hbytes
  case' mul => obtain ⟨-, rfl, rfl⟩ := hbytes
  all_goals simp [opcodeOf, opHlt, opLdi, opPrn, opPop, opPush, opMul, firstFault, stackFault, Instr.regOperands,
    ite_some_or, apply_ite (Option.map _), hinside]

/-- How a step ends by the check that failed first: fault entry with it, or, where none did, the status of a completed
instruction (R186, R189). -/
def EndsByCheck (s t : State) : Option StepCheck → Prop
  | some c => t = takeFault s c.opcode c.cause
  | none => t.status = if byteAt s.mem s.pc = opHlt then .halted else .running

/-- HLT halts and every other completed instruction runs on. -/
theorem Completes.endsByCheck (hrun : s.status = .running) (hop : byteAt s.mem s.pc = opcodeOf i)
    (h : Completes s i t) : EndsByCheck s t none := by
  rcases h.status_pc with ⟨rfl, rfl⟩ | ⟨hi, hstatus, -⟩
  · simp [EndsByCheck, hop, opcodeOf]
  · simp [EndsByCheck, hop, opcodeOf_ne_opHlt hi, hstatus, hrun]

/-- The step and the list of checks agree where the three bytes at pc are inside memory. -/
theorem step_endsByCheck (hrun : s.status = .running) (hpc : s.pc ≤ 253) (hsp : s.sp ≤ 0xF4) :
    ∃ t, step s = .next t ∧ EndsByCheck s t ((stepChecks s).find? StepCheck.fails) := by
  rcases decode_cases (windowAt s) with ⟨i, hd, hop, -⟩ | ⟨-, hill⟩
  · obtain ⟨t, ht, -⟩ := exec_cases i s
    refine ⟨t, (step_of_instr hrun hpc hd).trans ht, ?_⟩
    rw [firstCheck_instr hpc hsp hd]
    rcases exec_next_cases ht with ⟨hnone, hdone⟩ | ⟨c, hfault, rfl⟩
    · rw [hnone]
      exact hdone.endsByCheck hrun hop
    · rw [hfault]
      rfl
  · have hill' : byteAt s.mem s.pc ∉ legalBytes := (select_eq_illegal_iff _).1 hill
    exact ⟨_, step_of_illegal hrun hpc hill', by rw [firstCheck_illegal hpc hill']; rfl⟩

end

/-- Settles O20: the fetch checks past the end, and the decode's and the instruction's own below it. -/
theorem firstFailingCheckDecides : Obligations.FirstFailingCheckDecides := by
  intro s hinv hrun
  change ∃ t, step s = .next t ∧ EndsByCheck s t ((stepChecks s).find? StepCheck.fails)
  by_cases hpc : s.pc ≤ 253
  · exact step_endsByCheck hrun hpc hinv.sp_le
  · have hlo : 254 ≤ s.pc := by omega
    exact ⟨_, step_pastEnd hrun hlo hinv.pc_le, by rw [firstCheck_pastEnd hlo hinv.pc_le]; rfl⟩

end Sys2Proof.Machine
end

section
/-! The invariant (spec/10_state.md sections 3, 4 and 6): every completed instruction keeps its bounds, and every record
a step makes is as R34 and R181 to R185 describe it. -/

namespace Sys2Proof

open Sys2Proof.Machine

section
variable {s t : State} {i : Instr} {c : Cause} {pc : Nat} {op : Byte}

/-- Fault entry keeps the invariant when its record is one the spec describes. -/
theorem StateInv.takeFault {opcode : Option Byte} (hinv : StateInv s)
    (hrecord : RecordOk s.pc (faultRecord s.pc opcode c)) : StateInv (takeFault s opcode c) := by
  refine ⟨hinv.mem_wf, hinv.pc_le, hinv.sp_le, fun r hr => ?_⟩
  obtain rfl : faultRecord s.pc opcode c = r := by simpa using hr
  exact hrecord

/-- R182, R215: the record of a fetch past the end. -/
theorem recordOk_pastEnd : RecordOk s.pc (faultRecord s.pc (fetchedOpcode s) (.addressOutOfRange .mem 256)) := by
  constructor <;> simp [faultRecord, causeKind, causeSpace, causeValue, fetchedOpcode]

/-- R181: the record of an illegal byte. -/
theorem recordOk_illegal (hill : select op = .illegal) :
    RecordOk pc (faultRecord pc (some op) (.unknownOpcode op)) := by
  constructor <;> simp [faultRecord, causeKind, causeSpace, causeValue, hill]

/-- R182, R184, R185: the record of a fault an instruction raises while SP is in its bounds. -/
theorem recordOk_raisedBy (hsp : s.sp ≤ 0xF4) (h : RaisedBy s i c) :
    RecordOk pc (faultRecord pc (some op) c) := by
  cases h with
  | @badReg _ r _ hbad =>
    have hbyte : r.toNat ≤ 255 := Nat.le_of_lt_succ r.isLt
    constructor <;> simp [faultRecord, causeKind, causeSpace, causeValue, hbad, hbyte]
  | full h => constructor <;> simp [faultRecord, causeKind, causeSpace, causeValue]
  | empty h =>
    have htop : s.sp = 0xF4 := le_antisymm hsp h
    constructor <;> simp [faultRecord, causeKind, causeSpace, causeValue, htop]
  | outside h => omega

/-- A completed instruction leaves memory canonical and SP in 0..0xF4. -/
theorem Machine.Completes.mem_wf_sp_le (hinv : StateInv s) (h : Completes s i t) :
    Memory.wf t.mem = true ∧ t.sp ≤ 0xF4 := by
  have hsp : s.sp ≤ 0xF4 := hinv.sp_le
  cases h with
  | push hra hne hb => exact ⟨wf_setByte hinv.mem_wf (by omega), by simp; omega⟩
  | pop hra hlt => exact ⟨hinv.mem_wf, hlt⟩
  | hlt => exact ⟨hinv.mem_wf, hsp⟩
  | ldi hra => exact ⟨hinv.mem_wf, hsp⟩
  | prn hra => exact ⟨hinv.mem_wf, hsp⟩
  | mul ha hb => exact ⟨hinv.mem_wf, hsp⟩

/-- A completed instruction keeps the invariant: it advances PC from at most 253 by at most 3, or halts. -/
theorem Machine.Completes.stateInv (hinv : StateInv s) (hrun : s.status = .running) (hpc : s.pc ≤ 253)
    (h : Completes s i t) : StateInv t := by
  obtain ⟨hmem, hsp⟩ := h.mem_wf_sp_le hinv
  rcases h.status_pc with ⟨-, rfl⟩ | ⟨-, hstatus, hadvance⟩
  · exact ⟨hmem, hinv.pc_le, hsp, fun r hr => by simp at hr⟩
  · have := operandCount_le i
    exact .of_running hmem (by omega) hsp (hstatus.trans hrun)

end

/-- Settles O6: the fetch fault, the illegal byte, the fault an instruction raises and the completed instruction, each by
its own lemma. -/
theorem stepKeepsTheInvariant : Obligations.StepKeepsTheInvariant := by
  intro s t hinv h
  have hrun := step_next_running h
  obtain ⟨t', ht, hcases⟩ := step_cases hrun
  obtain rfl : t = t' := Host.Outcome.next.inj (h.symm.trans ht)
  rcases hcases with ⟨f, hf, hlo, rfl⟩ | ⟨-, hill, rfl⟩ | ⟨hpc, i, -, -, -, -, hdone | ⟨c, hraised, rfl⟩⟩
  · obtain rfl : f = _ := Except.error.inj (hf.symm.trans (fetch_pastEnd hlo hinv.pc_le))
    exact hinv.takeFault recordOk_pastEnd
  · exact hinv.takeFault (recordOk_illegal hill)
  · exact hdone.stateInv hinv hrun hpc
  · exact hinv.takeFault (recordOk_raisedBy hinv.sp_le hraised)

end Sys2Proof
end

section
/-! The memory array, the program load and reset (spec/20_memory.md sections 2 and 5, spec/10_state.md section 9,
spec/70_reset_and_hazards.md section 1). -/

namespace Sys2Proof.Machine

/-- Settles O7: the two sides of the bounds check. -/
theorem memReadChecksBounds : Obligations.MemReadChecksBounds :=
  fun _ _ => ⟨memRead_ok, memRead_error⟩

/-- A bounded read after a write inside the array. -/
theorem memRead_setByte {m : Memory} {addr a : Nat} {v : Byte} (hm : Memory.wf m = true) (h : addr < 256) :
    memRead (setByte m addr v) a = if a = addr then .ok v else memRead m a := by
  by_cases ha : a < 256
  · rw [memRead_ok ha, memRead_ok ha, byteAt_setByte hm, apply_ite Except.ok]
  · rw [memRead_error (Nat.not_lt.1 ha), memRead_error (Nat.not_lt.1 ha), if_neg (by omega)]

/-- Settles O8: a write inside the array is `setByte`, whose laws give the reads and the canonical form. -/
theorem memWriteChangesOneCell : Obligations.MemWriteChangesOneCell :=
  fun _ _ _ hm =>
    ⟨fun h => ⟨_, memWrite_ok h, wf_setByte hm h, fun _ => memRead_setByte hm h⟩, memWrite_error⟩

@[simp] theorem byteAt_nil (a : Nat) : byteAt [] a = 0 := rfl

/-- Settles O2: a memory that lists no cell reads 0 everywhere; the other fields are reset's own. -/
theorem resetMemoryFlagsStatusAndOutput : Obligations.ResetMemoryFlagsStatusAndOutput :=
  ⟨byteAt_nil, rfl, rfl, rfl⟩

/-- Settles O5: reset is Running, with each bound met. -/
theorem resetMeetsTheInvariant : Obligations.ResetMeetsTheInvariant :=
  .of_running rfl (Nat.zero_le _) le_rfl rfl

section
variable {image : List Nat}

/-- The machine with this image loaded (R59, R210). -/
def loaded (image : List Nat) : State :=
  { State.reset with mem := storeBytes State.reset.mem Config.loadBase (image.map (BitVec.ofNat 8)) }

theorem load_of_fits (hlen : image.length ≤ 256) (hval : ∀ v ∈ image, v ≤ 255) : load image = .ok (loaded image) := by
  have hfind : image.find? (fun v => decide (255 < v)) = none :=
    List.find?_eq_none.2 fun v hv => by simpa using hval v hv
  simp only [load, if_neg (Nat.not_lt.2 hlen), hfind]
  rfl

theorem load_of_too_long (hlen : 256 < image.length) : load image = .error (.imageTooLong image.length) := if_pos hlen

theorem load_of_too_large (hval : ∃ v ∈ image, 255 < v) : ∃ why, load image = .error why := by
  by_cases hlen : 256 < image.length
  · exact ⟨_, load_of_too_long hlen⟩
  · cases hfind : image.find? (fun v => decide (255 < v)) with
    | some v => exact ⟨.valueTooLarge v, by simp only [load, if_neg hlen, hfind]⟩
    | none =>
      obtain ⟨v, hv, hlarge⟩ := hval
      exact absurd (decide_eq_true hlarge) (List.find?_eq_none.1 hfind v hv)

/-- Cell `i` of the loaded machine is byte `i` of the image, and 0 beyond it. -/
theorem byteAt_loaded (hlen : image.length ≤ 256) (hval : ∀ v ∈ image, v ≤ 255) (a : Nat) :
    (byteAt (loaded image).mem a).toNat = image.getD a 0 := by
  rw [loaded, byteAt_storeBytes rfl (by simpa using hlen)]
  by_cases ha : a < image.length
  · have hbyte : image[a] < 256 := Nat.lt_succ_of_le (hval _ (List.getElem_mem ha))
    simp [ha, Nat.mod_eq_of_lt hbyte]
  · simp [ha, State.reset]

end

/-- Settles O4: the length is refused first, then the first value too large. -/
theorem loadRefusesAnImageThatDoesNotFit : Obligations.LoadRefusesAnImageThatDoesNotFit := by
  rintro image (hlen | hval)
  · exact ⟨_, load_of_too_long hlen⟩
  · exact load_of_too_large hval

/-- Settles O3: the loaded memory is a store of the image's bytes from address 0, and the rest is reset. -/
theorem loadPlacesTheImage : Obligations.LoadPlacesTheImage := fun image hlen hval =>
  ⟨loaded image, load_of_fits hlen hval, .of_running (wf_storeBytes rfl) (Nat.zero_le _) le_rfl rfl,
    byteAt_loaded hlen hval, readReg_reset, rfl, rfl, rfl, rfl, rfl⟩

end Sys2Proof.Machine
end

section
/-! POP and PUSH (spec/41_data_control.md R133, R134), the register check of every instruction (spec/10_state.md R23)
and alu_dispatch's table (spec/42_alu.md R163). -/

namespace Sys2Proof.Machine

section
variable {s : State} {ra : Byte} {r : RegIdx}

/-- The state a completed POP of this register leaves (R133). -/
def popped (s : State) (r : RegIdx) : State :=
  advancePc opPop { writeReg s r (byteAt s.mem s.sp) with sp := s.sp + 1 }

/-- The state a completed PUSH of this register leaves (R134). -/
def pushed (s : State) (r : RegIdx) : State :=
  advancePc opPush { s with sp := s.sp - 1, mem := setByte s.mem (s.sp - 1) (readReg s r) }

@[simp] theorem popped_mem (s : State) (r : RegIdx) : (popped s r).mem = s.mem := rfl
@[simp] theorem popped_x (s : State) (r : RegIdx) : (popped s r).x = s.x.set r (byteAt s.mem s.sp) := rfl
@[simp] theorem popped_pc (s : State) (r : RegIdx) : (popped s r).pc = s.pc + 2 := rfl
@[simp] theorem popped_sp (s : State) (r : RegIdx) : (popped s r).sp = s.sp + 1 := rfl
@[simp] theorem popped_fl (s : State) (r : RegIdx) : (popped s r).fl = s.fl := rfl
@[simp] theorem popped_status (s : State) (r : RegIdx) : (popped s r).status = s.status := rfl
@[simp] theorem popped_out (s : State) (r : RegIdx) : (popped s r).out = s.out := rfl

theorem readReg_popped (s : State) (r q : RegIdx) :
    readReg (popped s r) q = if q = r then byteAt s.mem s.sp else readReg s q :=
  readReg_writeReg s r q (byteAt s.mem s.sp)

@[simp] theorem pushed_x (s : State) (r : RegIdx) : (pushed s r).x = s.x := rfl
@[simp] theorem pushed_pc (s : State) (r : RegIdx) : (pushed s r).pc = s.pc + 2 := rfl
@[simp] theorem pushed_sp (s : State) (r : RegIdx) : (pushed s r).sp = s.sp - 1 := rfl
@[simp] theorem pushed_fl (s : State) (r : RegIdx) : (pushed s r).fl = s.fl := rfl
@[simp] theorem pushed_status (s : State) (r : RegIdx) : (pushed s r).status = s.status := rfl
@[simp] theorem pushed_out (s : State) (r : RegIdx) : (pushed s r).out = s.out := rfl
@[simp] theorem pushed_mem (s : State) (r : RegIdx) :
    (pushed s r).mem = setByte s.mem (s.sp - 1) (readReg s r) := rfl

theorem keepsRegs_pushed (s : State) (r : RegIdx) : KeepsRegs s (pushed s r) := fun _ => rfl

theorem byteAt_pushed {a : Nat} (hm : Memory.wf s.mem = true) :
    byteAt (pushed s r).mem a = if a = s.sp - 1 then readReg s r else byteAt s.mem a :=
  byteAt_setByte hm

theorem exec_pop_named (hr : ra.toNat = r.val) (hsp : s.sp < 0xF4) : exec (.pop ra) s = .next (popped s r) := by
  obtain ⟨h, rfl⟩ := regIdx_eq_mk hr
  exact execPop_eq h hsp

theorem exec_push_named (hr : ra.toNat = r.val) (hne : s.sp ≠ 0) (hsp : s.sp ≤ 256) :
    exec (.push ra) s = .next (pushed s r) := by
  obtain ⟨h, rfl⟩ := regIdx_eq_mk hr
  exact execPush_eq h hne hsp

end

/-- Settles O28: POP is one register write, SP's increment and the advance. -/
theorem popReadsThenIncrements : Obligations.PopReadsThenIncrements := by
  intro ra r s hr hsp
  refine ⟨popped s r, exec_pop_named hr hsp, ?result, rfl, rfl, ?regs, fun _ => rfl, rfl, rfl, rfl⟩
  case result => rw [readReg_popped, if_pos rfl]
  case regs =>
    intro q hq
    rw [readReg_popped, if_neg hq]

/-- Settles O29: PUSH is SP's decrement, one cell's write and the advance. -/
theorem pushDecrementsThenWrites : Obligations.PushDecrementsThenWrites := by
  intro ra r s hm hr hpos hsp
  refine ⟨pushed s r, exec_push_named hr (Nat.ne_of_gt hpos) (by omega), rfl, ?written, ?others, rfl,
    keepsRegs_pushed s r, rfl, rfl, rfl⟩
  case written => rw [byteAt_pushed hm, if_pos rfl]
  case others =>
    intro a ha
    rw [byteAt_pushed hm, if_neg ha]

/-- Settles O31: the overflow's record, field by field, is fault entry's. -/
theorem pushOnFullStackFaults : Obligations.PushOnFullStackFaults :=
  fun _ _ hra hsp => execPush_full hra hsp

/-- Settles O32: the underflow's record, field by field, is fault entry's. -/
theorem popOnEmptyStackFaults : Obligations.PopOnEmptyStackFaults :=
  fun _ _ hra hsp => execPop_empty hra hsp

theorem checkReg_named {index : Byte} {r : RegIdx} (h : index.toNat = r.val) : checkReg index = .ok r := by
  obtain ⟨hlt, rfl⟩ := regIdx_eq_mk h
  exact checkReg_ok hlt

/-- Settles O33: the check by the two sides of its bound, and exec by the first bad operand. -/
theorem registerIndexIsChecked : Obligations.RegisterIndexIsChecked :=
  ⟨fun _ => ⟨fun _ => checkReg_named, checkReg_error⟩,
    fun _ _ _ hbad => ⟨_, exec_of_badReg hbad, registerFault_takeFault ..⟩⟩

/-- A register check raises no fault but its own (R23). -/
theorem checkReg_error_cases {i : Byte} {c : Cause} (h : checkReg i = .error c) :
    c = .addressOutOfRange .reg i.toNat := by
  by_cases hi : i.toNat < 8
  · rw [checkReg_ok hi] at h
    cases h
  · exact (Except.error.inj ((checkReg_error (Nat.not_lt.1 hi)).symm.trans h)).symm

/-- R163: for MUL's opcode alu_dispatch raises the faults of the register checks alone. -/
theorem aluDispatch_opMul_ne_unsupported (a b op : Byte) (s : State) :
    aluDispatch opMul a b s ≠ .error (.unsupportedOperation op) := by
  rw [aluDispatch_opMul]
  cases ha : checkReg a with
  | error c => simp [Except.bind, checkReg_error_cases ha]
  | ok r =>
    cases hb : checkReg b with
    | error c => simp [Except.bind, checkReg_error_cases hb]
    | ok q => simp [Except.bind]

/-- Settles O35: outside the table the opcode is rejected, and MUL's own faults are other ones. -/
theorem aluRejectsOtherOpcodes : Obligations.AluRejectsOtherOpcodes := by
  refine fun op a b s => ⟨fun h hop => ?raised, aluDispatch_of_ne_opMul⟩
  subst hop
  exact aluDispatch_opMul_ne_unsupported a b _ s h

end Sys2Proof.Machine
end

section
/-! What an instruction leaves unchanged (spec/10_state.md sections 2 to 7, spec/20_memory.md section 3): the frames of
exec. -/

namespace Sys2Proof.Machine

section
variable {s t : State} {i : Instr} {r q : RegIdx} {v : Byte}

/-- A register write can change only its own register. -/
theorem eq_of_readReg_writeReg_ne (h : readReg (writeReg s r v) q ≠ readReg s q) : q = r := by
  by_contra hne
  exact h (keepsRegsBut_writeReg s r v q hne)

/-- FL is no instruction's to change (R32). -/
theorem Completes.fl_eq (h : Completes s i t) : t.fl = s.fl := by
  cases h <;> rfl

/-- Only PUSH writes memory (R53). -/
theorem Completes.mem_eq (h : Completes s i t) (hpush : ∀ ra, i ≠ .push ra) : t.mem = s.mem := by
  cases h with
  | push => exact absurd rfl (hpush _)
  | _ => rfl

/-- Only PRN appends to the output channel (R36). -/
theorem Completes.out_eq (h : Completes s i t) (hprn : ∀ ra, i ≠ .prn ra) : t.out = s.out := by
  cases h with
  | prn => exact absurd rfl (hprn _)
  | _ => rfl

/-- SP moves down by one in PUSH, up by one in POP, and not otherwise (R30). -/
theorem Completes.sp_cases (h : Completes s i t) :
    (∃ ra, i = .push ra ∧ t.sp + 1 = s.sp) ∨ (∃ ra, i = .pop ra ∧ t.sp = s.sp + 1) ∨ t.sp = s.sp := by
  cases h with
  | push hra hne hb => exact .inl ⟨_, rfl, Nat.succ_pred hne⟩
  | pop hra hsp => exact .inr (.inl ⟨_, rfl, rfl⟩)
  | _ => exact .inr (.inr rfl)

theorem Completes.sp_eq (h : Completes s i t) (hpush : ∀ ra, i ≠ .push ra) (hpop : ∀ ra, i ≠ .pop ra) :
    t.sp = s.sp := by
  rcases h.sp_cases with ⟨ra, hi, -⟩ | ⟨ra, hi, -⟩ | hsp
  · exact absurd hi (hpush ra)
  · exact absurd hi (hpop ra)
  · exact hsp

/-- The register that differs after an instruction is the destination of LDI, POP or MUL (R22). -/
theorem Completes.dest_of_readReg_ne (h : Completes s i t) (hne : readReg t q ≠ readReg s q) :
    (∃ ra imm8, i = .ldi ra imm8 ∧ ra.toNat = q.val) ∨ (∃ ra, i = .pop ra ∧ ra.toNat = q.val) ∨
      ∃ ra rb, i = .mul ra rb ∧ ra.toNat = q.val := by
  cases h with
  | ldi hra => exact .inl ⟨_, _, rfl, congrArg Fin.val (eq_of_readReg_writeReg_ne hne).symm⟩
  | pop hra hsp => exact .inr (.inl ⟨_, rfl, congrArg Fin.val (eq_of_readReg_writeReg_ne hne).symm⟩)
  | mul ha hb => exact .inr (.inr ⟨_, _, rfl, congrArg Fin.val (eq_of_readReg_writeReg_ne hne).symm⟩)
  | hlt => exact absurd rfl hne
  | prn hra => exact absurd rfl hne
  | push hra hsp hb => exact absurd rfl hne

/-- A completed PUSH is the named register's. -/
theorem Completes.push_cases {ra : Byte} (h : Completes s (.push ra) t) :
    ∃ r : RegIdx, ra.toNat = r.val ∧ s.sp ≠ 0 ∧ s.sp ≤ 256 ∧ t = pushed s r := by
  cases h with
  | push hra hne hb => exact ⟨⟨ra.toNat, hra⟩, rfl, hne, hb, rfl⟩

/-- A completed POP is the named register's. -/
theorem Completes.pop_cases {ra : Byte} (h : Completes s (.pop ra) t) :
    ∃ r : RegIdx, ra.toNat = r.val ∧ s.sp < 0xF4 ∧ t = popped s r := by
  cases h with
  | pop hra hsp => exact ⟨⟨ra.toNat, hra⟩, rfl, hsp, rfl⟩

/-- A completed PRN is the named register's. -/
theorem Completes.prn_cases {ra : Byte} (h : Completes s (.prn ra) t) :
    ∃ r : RegIdx, ra.toNat = r.val ∧ t = advancePc opPrn (emit s (readReg s r)) := by
  cases h with
  | prn hra => exact ⟨⟨ra.toNat, hra⟩, rfl, rfl⟩

end

/-- Settles O36: a fault changes the status alone, and a completed instruction's frame is its lemmas'. -/
theorem frameOfFormsThatStoreNothing : Obligations.FrameOfFormsThatStoreNothing := by
  intro i s t hpush h
  rcases exec_next_cases h with ⟨-, hdone⟩ | ⟨c, -, rfl⟩
  · exact ⟨fun a => congrArg (byteAt · a) (hdone.mem_eq hpush), hdone.fl_eq, fun q => hdone.dest_of_readReg_ne,
      hdone.sp_eq hpush, hdone.out_eq⟩
  · exact ⟨fun _ => rfl, rfl, fun q hne => absurd rfl hne, fun _ => rfl, fun _ => rfl⟩

/-- What the stack_controller grants a push is the cell below SP (R135). -/
theorem stackPush_granted {sp : Nat} {access : StackAccess} (h : stackPush sp = .ok access) :
    access.addr = sp - 1 ∧ access.spNext = sp - 1 := by
  by_cases hsp : sp = 0
  · subst hsp
    cases h
  · rw [stackPush_ok hsp] at h
    cases h
    exact ⟨rfl, rfl⟩

/-- Settles O37: the one cell PUSH writes is the granted one; a request the controller refuses is a fault. -/
theorem frameOfPush : Obligations.FrameOfPush := by
  intro ra s t hm h
  rcases exec_next_cases h with ⟨-, hdone⟩ | ⟨c, -, rfl⟩
  · obtain ⟨r, -, hne, -, rfl⟩ := hdone.push_cases
    refine ⟨keepsRegs_pushed s r, rfl, rfl, fun access hok => ?granted, fun c herror => ?refused⟩
    case granted =>
      obtain ⟨haddr, hnext⟩ := stackPush_granted hok
      refine ⟨haddr, fun a ha => ?_, .inr hnext.symm⟩
      rw [byteAt_pushed hm, if_neg (haddr ▸ ha)]
    case refused =>
      rw [stackPush_ok hne] at herror
      cases herror
  · exact ⟨fun _ => rfl, rfl, rfl,
      fun access hok => ⟨(stackPush_granted hok).1, fun _ _ => rfl, .inl rfl⟩, fun _ _ => ⟨fun _ => rfl, rfl⟩⟩

/-- Settles O38: a fault keeps SP, and a completed instruction moves it only in PUSH and POP. -/
theorem onlyPushAndPopMoveSp : Obligations.OnlyPushAndPopMoveSp := by
  intro i s t h hne
  rcases exec_next_cases h with ⟨-, hdone⟩ | ⟨c, -, rfl⟩
  · rcases hdone.sp_cases with hpush | hpop | hsp
    · exact .inl hpush
    · exact .inr hpop
    · exact absurd hsp hne
  · exact absurd rfl hne

end Sys2Proof.Machine
end

section
/-! Rules of the whole machine (spec/10_state.md sections 3, 5 and 7, spec/20_memory.md sections 3, 5 and 6): which
byte at pc can change memory or the output channel, and what no step depends on. -/

namespace Sys2Proof.Machine

section
variable {s t : State} {i : Instr} {c : Cause}

/-- PUSH stands at pc exactly where its opcode byte and its operand byte do. -/
theorem decode_windowAt_push {ra : Byte} :
    decode (windowAt s) = .instr (.push ra) ↔ byteAt s.mem s.pc = opPush ∧ byteAt s.mem (s.pc + 1) = ra := by
  rw [decodeAgreesWithEncode]
  simp [windowAt, List.cons_prefix_cons, eq_comm]

/-- PRN stands at pc exactly where its opcode byte and its operand byte do. -/
theorem decode_windowAt_prn {ra : Byte} :
    decode (windowAt s) = .instr (.prn ra) ↔ byteAt s.mem s.pc = opPrn ∧ byteAt s.mem (s.pc + 1) = ra := by
  rw [decodeAgreesWithEncode]
  simp [windowAt, List.cons_prefix_cons, eq_comm]

/-- A step keeps memory, or completed the PUSH at pc (R53). -/
theorem step_mem_cases (h : step s = .next t) :
    t.mem = s.mem ∨ (byteAt s.mem s.pc = opPush ∧
      ∃ r : RegIdx, (byteAt s.mem (s.pc + 1)).toNat = r.val ∧ s.sp ≠ 0 ∧ t = pushed s r) := by
  rcases step_faults_or_completes h with ⟨_, _, rfl⟩ | ⟨-, i, hd, hdone⟩
  · exact .inl rfl
  · by_cases hpush : ∃ ra, i = .push ra
    · obtain ⟨ra, rfl⟩ := hpush
      obtain ⟨hop, rfl⟩ := decode_windowAt_push.1 hd
      obtain ⟨r, hr, hne, -, ht⟩ := hdone.push_cases
      exact .inr ⟨hop, r, hr, hne, ht⟩
    · exact .inl (hdone.mem_eq (not_exists.1 hpush))

/-- A step keeps the output channel, or completed the PRN at pc (R36). -/
theorem step_out_cases (h : step s = .next t) :
    t.out = s.out ∨ (byteAt s.mem s.pc = opPrn ∧
      ∃ r : RegIdx, (byteAt s.mem (s.pc + 1)).toNat = r.val ∧ t.out = s.out ++ [readReg s r]) := by
  rcases step_faults_or_completes h with ⟨_, _, rfl⟩ | ⟨-, i, hd, hdone⟩
  · exact .inl rfl
  · by_cases hprn : ∃ ra, i = .prn ra
    · obtain ⟨ra, rfl⟩ := hprn
      obtain ⟨hop, rfl⟩ := decode_windowAt_prn.1 hd
      obtain ⟨r, hr, rfl⟩ := hdone.prn_cases
      exact .inr ⟨hop, r, hr, rfl⟩
    · exact .inl (hdone.out_eq (not_exists.1 hprn))

end

/-- Settles O39: memory changes in the PUSH at pc alone, which writes the cell below SP. -/
theorem onlyPushWritesMemory : Obligations.OnlyPushWritesMemory := by
  intro s t a hinv h hchanged
  rcases step_mem_cases h with hmem | ⟨hop, r, hr, hne, rfl⟩
  · rw [hmem] at hchanged
    exact absurd rfl hchanged
  · rw [byteAt_pushed hinv.mem_wf] at hchanged ⊢
    have ha : a = s.sp - 1 := by
      by_contra hother
      exact hchanged (if_neg hother)
    exact ⟨hop, by omega, r, hr, if_pos ha⟩

/-- Settles O40: the only cell a step changes is below SP, and SP is at most 0xF4. -/
theorem cellsAboveTheStackNeverChange : Obligations.CellsAboveTheStackNeverChange := by
  intro s t a hinv h ha
  by_contra hchanged
  obtain ⟨-, hbelow, -⟩ := onlyPushWritesMemory s t a hinv h hchanged
  have hsp : s.sp ≤ 0xF4 := hinv.sp_le
  omega

/-- Settles O41: the output changes in the PRN at pc alone. -/
theorem onlyPrnExtendsTheOutput : Obligations.OnlyPrnExtendsTheOutput :=
  fun _ _ h => step_out_cases h

/-! ### FL -/

section
variable {s t : State} {i : Instr} {v : Byte} {p : Nat}

theorem Completes.withFl (h : Completes s i t) (v : Byte) : Completes { s with fl := v } i { t with fl := v } := by
  cases h with
  | hlt => exact .hlt
  | ldi hra => exact .ldi hra
  | prn hra => exact .prn hra
  | pop hra hsp => exact .pop hra hsp
  | push hra hne hb => exact .push hra hne hb
  | mul ha hb => exact .mul ha hb

/-- An instruction does the same whatever FL holds, for neither its checks nor its effect read it (R32). -/
theorem exec_withFl (h : exec i s = .next t) (v : Byte) :
    exec i { s with fl := v } = .next { t with fl := v } := by
  rcases exec_next_cases h with ⟨-, hdone⟩ | ⟨c, hfault, rfl⟩
  · exact (hdone.withFl v).exec_eq
  · exact exec_of_firstFault hfault

theorem step_withFl (h : step s = .next t) (v : Byte) : step { s with fl := v } = .next { t with fl := v } := by
  have hrun := step_next_running h
  have hrun' : ({ s with fl := v } : State).status = .running := hrun
  obtain ⟨t', ht, hcases⟩ := step_cases hrun
  obtain rfl : t = t' := Host.Outcome.next.inj (h.symm.trans ht)
  rcases hcases with ⟨f, hf, -, rfl⟩ | ⟨hpc, hill, rfl⟩ | ⟨hpc, i, hd, -, -, hexec, -⟩
  · exact step_of_fetchFault hrun' hf
  · exact step_of_illegal hrun' hpc ((select_eq_illegal_iff _).1 hill)
  · exact (step_of_instr hrun' hpc hd).trans (exec_withFl hexec v)

theorem step_fl_eq (h : step s = .next t) : t.fl = s.fl := by
  rcases step_faults_or_completes h with ⟨_, _, rfl⟩ | ⟨-, i, -, hdone⟩
  · rfl
  · exact hdone.fl_eq

/-! ### PC -/

/-- A completed instruction moves PC by an amount of its own, from wherever it stands (R28). -/
theorem Completes.withPc (h : Completes s i t) (p : Nat) :
    ∃ d, t.pc = s.pc + d ∧ Completes { s with pc := p } i { t with pc := p + d } := by
  cases h with
  | hlt => exact ⟨0, rfl, .hlt⟩
  | ldi hra => exact ⟨3, rfl, .ldi hra⟩
  | prn hra => exact ⟨2, rfl, .prn hra⟩
  | pop hra hsp => exact ⟨2, rfl, .pop hra hsp⟩
  | push hra hne hb => exact ⟨2, rfl, .push hra hne hb⟩
  | mul ha hb => exact ⟨3, rfl, .mul ha hb⟩

end

/-- Settles O42: no check and no effect of a step reads FL, and none writes it. -/
theorem flIsNeitherReadNorWritten : Obligations.FlIsNeitherReadNorWritten :=
  fun _ _ v h => ⟨step_fl_eq h, step_withFl h v⟩

/-- Settles O43: a completed instruction moves any PC alike; a fault's record alone holds PC. -/
theorem pcIsNeverData : Obligations.PcIsNeverData := by
  intro i s t p h
  rcases exec_next_cases h with ⟨-, hdone⟩ | ⟨c, hfault, rfl⟩
  · obtain ⟨d, hpc, hdone'⟩ := hdone.withPc p
    exact ⟨_, hdone'.exec_eq, fun _ => rfl, fun _ => rfl, rfl, rfl, rfl, by simp only [hpc]; omega, .inl rfl⟩
  · exact ⟨_, exec_of_firstFault hfault, fun _ => rfl, fun _ => rfl, rfl, rfl, rfl, Nat.add_comm _ _,
      .inr ⟨_, rfl, rfl⟩⟩

/-- Settles O44: the fetch reads the memory the PUSH left, whose cell at the new SP is the pushed byte. -/
theorem pushedByteIsFetchedNext : Obligations.PushedByteIsFetchedNext := by
  intro s t r hinv hop hr h hrun hpc
  obtain ⟨-, i, hd, hdone⟩ := step_running_completes h hrun
  obtain rfl : i = .push (byteAt s.mem (s.pc + 1)) :=
    Decoded.instr.inj (hd.symm.trans (decode_windowAt_push.2 ⟨hop, rfl⟩))
  obtain ⟨q, hq, -, -, rfl⟩ := hdone.push_cases
  obtain rfl : r = q := Fin.ext (hr.symm.trans hq)
  have hread : ∀ a, a = (pushed s r).sp → byteAt (pushed s r).mem a = readReg s r :=
    fun a ha => by exact (byteAt_pushed hinv.mem_wf).trans (if_pos ha)
  exact ⟨_, fetch_ok hpc, hread _, hread _, hread _⟩

/-- The fetch of a placed word is that word. -/
theorem windowAt_withFetchWord {s : State} {nbits w : Nat} (hm : Memory.wf s.mem = true) (hpc : s.pc ≤ 253) :
    windowAt (s.withFetchWord nbits w) = windowOfTableWord nbits w := by
  have hfit : ∀ v : Window, s.pc + [v.op, v.a, v.b].length ≤ 256 := fun v => by
    simp only [List.length_cons, List.length_nil]
    omega
  simp [windowAt, State.withFetchWord, byteAt_storeBytes hm (hfit _)]

/-- Settles O45: the placed word is the fetched window, and it decodes to the instruction. -/
theorem placedWordRuns : Obligations.PlacedWordRuns := fun _ _ _ _ hm hrun hpc hd =>
  step_of_instr hrun hpc ((windowAt_withFetchWord hm hpc).symm ▸ decodeTableWord_eq_some.1 hd)

end Sys2Proof.Machine
end

section
/-! The stack law (spec/41_data_control.md section 2, R137): sequences of PUSH and POP against a stack of their own. -/

namespace Sys2Proof

open Sys2Proof.Machine

/-! ### A sequence of requests, one request at a time -/

section
variable {s t u : State} {i : Instr} {is : List Instr} {r : RegIdx} {ops : List StackOp} {n : Nat}

/-- An instruction that leaves the machine Running completed. -/
theorem completes_of_exec_running (h : exec i s = .next t) (hrun : t.status = .running) : Completes s i t := by
  rcases exec_next_cases h with ⟨-, hdone⟩ | ⟨_, -, rfl⟩
  · exact hdone
  · simp at hrun

theorem runInstrs_cons : runInstrs (i :: is) s = some t ↔
    ∃ u, exec i s = .next u ∧ u.status = .running ∧ runInstrs is u = some t := by
  obtain ⟨u, hu, -⟩ := exec_cases i s
  by_cases hrun : u.status = .running <;> simp [runInstrs, hu, hrun]

/-- A register's number as an operand byte (R74). -/
theorem toNat_regByte (r : RegIdx) : (BitVec.ofNat 8 r.val).toNat = r.val := by
  have : r.val < 8 := r.isLt
  rw [BitVec.toNat_ofNat]
  omega

theorem regIdx_eq_of_regByte {q : RegIdx} (h : (BitVec.ofNat 8 r.val).toNat = q.val) : q = r :=
  Fin.ext (h.symm.trans (toNat_regByte r))

/-- A run that begins with a PUSH had room and goes on from the pushed state. -/
theorem run_push_cases (h : runInstrs ((StackOp.push r :: ops).map StackOp.instr) s = some t) :
    s.sp ≠ 0 ∧ runInstrs (ops.map StackOp.instr) (pushed s r) = some t := by
  obtain ⟨u, hu, hrun, hrest⟩ := runInstrs_cons.1 h
  obtain ⟨q, hq, hne, -, rfl⟩ := (completes_of_exec_running hu hrun).push_cases
  obtain rfl := regIdx_eq_of_regByte hq
  exact ⟨hne, hrest⟩

/-- A run that begins with a POP goes on from the popped state. -/
theorem run_pop_cases (h : runInstrs ((StackOp.pop r :: ops).map StackOp.instr) s = some t) :
    s.sp < 0xF4 ∧ runInstrs (ops.map StackOp.instr) (popped s r) = some t := by
  obtain ⟨u, hu, hrun, hrest⟩ := runInstrs_cons.1 h
  obtain ⟨q, hq, hsp, rfl⟩ := (completes_of_exec_running hu hrun).pop_cases
  obtain rfl := regIdx_eq_of_regByte hq
  exact ⟨hsp, hrest⟩

theorem run_push (hrun : s.status = .running) (hne : s.sp ≠ 0) (hsp : s.sp ≤ 0xF4)
    (h : runInstrs is (pushed s r) = some t) : runInstrs ((StackOp.push r).instr :: is) s = some t :=
  runInstrs_cons.2 ⟨_, exec_push_named (toNat_regByte r) hne (by omega), hrun, h⟩

theorem run_pop (hrun : s.status = .running) (hsp : s.sp < 0xF4)
    (h : runInstrs is (popped s r) = some t) : runInstrs ((StackOp.pop r).instr :: is) s = some t :=
  runInstrs_cons.2 ⟨_, exec_pop_named (toNat_regByte r) hsp, hrun, h⟩

/-- From a stack of `n` bytes, no beginning of the sequence pops more than there is. -/
def PopsWithin (n : Nat) (ops : List StackOp) : Prop := ∀ k, pops (ops.take k) ≤ n + pushes (ops.take k)

theorem popsWithin_zero : PopsWithin 0 ops ↔ NeverPopsEmpty ops := by
  simp only [PopsWithin, NeverPopsEmpty, Nat.zero_add]

theorem PopsWithin.of_push (h : PopsWithin n (.push r :: ops)) : PopsWithin (n + 1) ops := fun k => by
  have := h (k + 1)
  simp only [List.take_succ_cons, pops, pushes] at this
  omega

theorem PopsWithin.pos_of_pop (h : PopsWithin n (.pop r :: ops)) : 0 < n := by
  have := h 1
  simp only [List.take_succ_cons, List.take_zero, pops, pushes] at this
  omega

theorem PopsWithin.of_pop (h : PopsWithin (n + 1) (.pop r :: ops)) : PopsWithin n ops := fun k => by
  have := h (k + 1)
  simp only [List.take_succ_cons, pops, pushes] at this
  omega

/-! ### SP and the room for a sequence -/

/-- SP goes down with each push and up with each pop of a run. -/
theorem run_sp (h : runInstrs (ops.map StackOp.instr) s = some t) : t.sp + pushes ops = s.sp + pops ops := by
  induction ops generalizing s with
  | nil =>
    obtain rfl : s = t := Option.some.inj h
    rfl
  | cons op ops ih =>
    cases op with
    | push r =>
      obtain ⟨hne, hrest⟩ := run_push_cases h
      have := ih hrest
      simp only [pushed_sp, pushes, pops] at this ⊢
      omega
    | pop r =>
      obtain ⟨-, hrest⟩ := run_pop_cases h
      have := ih hrest
      simp only [popped_sp, pushes, pops] at this ⊢
      omega

/-- With `n` bytes on the stack, a sequence that pops no more than there is and pushes no more than SP has room for runs
to its end. -/
theorem run_of_room (hrun : s.status = .running) (hsp : s.sp + n ≤ 0xF4) (hpops : PopsWithin n ops)
    (hroom : pushes ops ≤ s.sp) : ∃ t, runInstrs (ops.map StackOp.instr) s = some t := by
  induction ops generalizing s n with
  | nil => exact ⟨s, rfl⟩
  | cons op ops ih =>
    cases op with
    | push r =>
      have hroom' : pushes ops + 1 ≤ s.sp := hroom
      obtain ⟨t, ht⟩ := ih (s := pushed s r) hrun (by rw [pushed_sp]; omega) hpops.of_push (by rw [pushed_sp]; omega)
      exact ⟨t, run_push hrun (by omega) (by omega) ht⟩
    | pop r =>
      have hroom' : pushes ops ≤ s.sp := hroom
      obtain ⟨m, rfl⟩ := Nat.exists_eq_add_one.2 hpops.pos_of_pop
      obtain ⟨t, ht⟩ := ih (s := popped s r) hrun (by rw [popped_sp]; omega) hpops.of_pop (by rw [popped_sp]; omega)
      exact ⟨t, run_pop hrun (by omega) ht⟩

end

/-! ### The simulation -/

/-- The machine holds this stack below `base`: its bytes stand at SP upward, the latest first, and every cell from `base`
upward reads as in `m₀`. -/
structure HoldsStack (base : Nat) (m₀ : Memory) (s : State) (st : List Byte) : Prop where
  mem_wf : Memory.wf s.mem = true
  base_le : base ≤ 0xF4
  sp_add : s.sp + st.length = base
  cells : ∀ k, k < st.length → byteAt s.mem (s.sp + k) = st.getD k 0
  above : ∀ a, base ≤ a → byteAt s.mem a = byteAt m₀ a

section
variable {base : Nat} {m₀ : Memory} {s t : State} {st : List Byte} {v : Byte} {ops : List StackOp}

theorem holdsStack_nil (hinv : StateInv s) : HoldsStack s.sp s.mem s [] :=
  ⟨hinv.mem_wf, hinv.sp_le, rfl, fun k hk => absurd hk (Nat.not_lt_zero k), fun _ _ => rfl⟩

theorem HoldsStack.pushed (h : HoldsStack base m₀ s st) (hne : s.sp ≠ 0) (r : RegIdx) :
    HoldsStack base m₀ (pushed s r) (readReg s r :: st) := by
  obtain ⟨hm, hbase, hsp, hcells, habove⟩ := h
  refine ⟨wf_setByte hm (by omega), hbase, by rw [pushed_sp, List.length_cons]; omega, fun k hk => ?_, fun a ha => ?_⟩
  · rw [byteAt_pushed hm, pushed_sp]
    cases k with
    | zero => exact if_pos rfl
    | succ k =>
      have haddr : s.sp - 1 + (k + 1) = s.sp + k := by omega
      rw [haddr, if_neg (by omega)]
      exact hcells k (Nat.lt_of_succ_lt_succ hk)
  · rw [byteAt_pushed hm, if_neg (by omega)]
    exact habove a ha

theorem HoldsStack.popped (h : HoldsStack base m₀ s (v :: st)) (r : RegIdx) :
    HoldsStack base m₀ (popped s r) st := by
  obtain ⟨hm, hbase, hsp, hcells, habove⟩ := h
  rw [List.length_cons] at hsp
  refine ⟨hm, hbase, by rw [popped_sp]; omega, fun k hk => ?_, habove⟩
  have haddr : s.sp + 1 + k = s.sp + (k + 1) := by omega
  rw [popped_mem, popped_sp, haddr]
  exact hcells (k + 1) (Nat.succ_lt_succ hk)

/-- The byte at SP is the top of the stack. -/
theorem HoldsStack.top (h : HoldsStack base m₀ s (v :: st)) : byteAt s.mem s.sp = v :=
  h.cells 0 (Nat.succ_pos _)

/-- A run of the machine does to the stack it holds what the requests do to a stack of their own. -/
theorem run_refines_stack (hholds : HoldsStack base m₀ s st) (hpops : PopsWithin st.length ops)
    (hrun : runInstrs (ops.map StackOp.instr) s = some t) :
    ∃ st', runOnStack ops (s.x, st) = some (t.x, st') ∧ HoldsStack base m₀ t st' := by
  induction ops generalizing s st with
  | nil =>
    obtain rfl : s = t := Option.some.inj hrun
    exact ⟨st, rfl, hholds⟩
  | cons op ops ih =>
    cases op with
    | push r =>
      obtain ⟨hne, hrest⟩ := run_push_cases hrun
      exact ih (s := pushed s r) (hholds.pushed hne r) hpops.of_push hrest
    | pop r =>
      obtain ⟨-, hrest⟩ := run_pop_cases hrun
      cases st with
      | nil => exact absurd hpops.pos_of_pop (Nat.not_lt_zero 0)
      | cons v st =>
        have hx : (popped s r).x = s.x.set r v := by rw [popped_x, hholds.top]
        rw [runOnStack, ← hx]
        exact ih (s := popped s r) (hholds.popped r) hpops.of_pop hrest

end

/-- Settles O46: the simulation from the empty stack at the old SP. -/
theorem pushAndPopRefineAStack : Obligations.PushAndPopRefineAStack := by
  intro ops s t hinv hnever hrun
  obtain ⟨st, hst, -, -, hsp, hcells, habove⟩ :=
    run_refines_stack (holdsStack_nil hinv) (popsWithin_zero.2 hnever) hrun
  exact ⟨st, hst, hsp, hcells, habove⟩

/-- Settles O47: SP moves by the pops less the pushes. -/
theorem balancedStackRestoresSp : Obligations.BalancedStackRestoresSp := by
  intro ops s t _ _ hbalanced hrun
  have := run_sp hrun
  omega

/-- Settles O48: the room of a sequence, from an empty stack. -/
theorem stackSequenceWithRoomCompletes : Obligations.StackSequenceWithRoomCompletes :=
  fun _ _ hinv hrun hnever hroom => run_of_room hrun hinv.sp_le (popsWithin_zero.2 hnever) hroom

/-- Settles O49: the POP reads the cell the PUSH wrote, into the same register. -/
theorem pushThenPopRestores : Obligations.PushThenPopRestores := by
  intro r s hinv hrun hpos
  have hsp : s.sp ≤ 0xF4 := hinv.sp_le
  have hrunPop : (pushed s r).status = .running := hrun
  have hspPop : (pushed s r).sp < 0xF4 := by rw [pushed_sp]; omega
  refine ⟨popped (pushed s r) r, run_push hrun (by omega) hsp (run_pop hrunPop hspPop rfl),
    fun q => ?regs, ?sp, rfl, rfl, rfl, fun a ha => ?mem⟩
  case regs =>
    rw [readReg_popped, byteAt_pushed hinv.mem_wf, pushed_sp, if_pos rfl]
    split
    · next hq => rw [hq]
    · rfl
  case sp => rw [popped_sp, pushed_sp]; omega
  case mem => rw [popped_mem, byteAt_pushed hinv.mem_wf, if_neg (by omega)]

end Sys2Proof
end
